-- ==== Sys2Proof/Word.lean ====
section
/-!
DEFINITION. The word type of the block (WORD_WIDTH, 00_scope.md R7), the width of a register field, and text as
lists of characters (00_scope.md R10: a token is a finite sequence of characters).
-/

namespace Sys2Proof

/-- `Bits_32`, the encoded word (00_scope.md R7, R13). -/
abbrev Word := BitVec 32

/-- One byte, for a consumer that stores a word (20_memory.md R29). -/
abbrev Byte := BitVec 8

/-- `Bits_5`, a register index (00_scope.md R7, 10_state.md R17). -/
abbrev Reg := BitVec 5

/-- A finite sequence of characters. DESIGN CHOICE: a character is a Unicode scalar value (log entry 8). -/
abbrev Text := List Char

/-- One token of a line (00_scope.md R10); the tokenizer never makes an empty one (30_encoding.md R42). -/
abbrev Token := Text

/-- One line of input text, of unbounded length (30_encoding.md R37). -/
abbrev Line := Text

/-- The operand position at fault, `0..3`, where 0 is the line as a whole (30_encoding.md R38). -/
abbrev Pos := Fin 4

end Sys2Proof
end

