-- ==== Sys2Proof/Syntax.lean ====
section
/-!
DEFINITION. The names the block deals in: formats, the 21 mnemonics, the four error kinds, a descriptor, a result,
and `Instr`, one constructor per row of spec/opcode_table.json.
-/

namespace Sys2Proof

/-- The three instruction formats (00_scope.md R2, R13). -/
inductive Format where
  | R
  | I
  | U
deriving DecidableEq, Repr

/-- The 21 keys of the instruction table (30_encoding.md R47), in the table's order. -/
inductive Mnemonic where
  | add | sub | and | or | xor | sll | srl | sra | stl | stlu
  | addi | andi | ori | xori | slti | sltiu | slli | srli | srai
  | lui | auipc
deriving DecidableEq, Repr

/-- The four error kinds (60_exceptions.md R94). `ImmediateOverflow` is none of them (R100). -/
inductive ErrKind where
  | unknownMnemonic
  | invalidRegister
  | malformedImmediate
  | operandCountMismatch
deriving DecidableEq, Repr

/-- An Instruction Descriptor (10_state.md R16) with its format as an explicit tag; which of funct3 and funct7 are
present follows from the tag by construction (30_encoding.md R48). -/
inductive Descriptor where
  | r (opcode : BitVec 7) (funct3 : BitVec 3) (funct7 : BitVec 7)
  | i (opcode : BitVec 7) (funct3 : BitVec 3)
  | u (opcode : BitVec 7)
deriving DecidableEq, Repr

/-- The result of one evaluation, exactly one of three variants (30_encoding.md R38).
A result that is not `ok` holds no word (93_implementation_defined.md A9). -/
inductive Result where
  | ok (w : Word) (ovf : Bool)
  | blank
  | err (kind : ErrKind) (pos : Pos)
deriving DecidableEq, Repr

/-- A row of spec/opcode_table.json: a word `w` is of the row's pattern when `w AND mask = pattern`
(INDEX.md, "How to read opcode_table.json"). -/
structure OpcodeRow where
  mnemonic : Mnemonic
  pattern : Word
  mask : Word
deriving DecidableEq, Repr

/-- An instruction as the block sees it: a mnemonic of the table with its operand tokens, in order
(30_encoding.md R43). The tokens are what the rules of the mnemonics (R71-R93) start from. DESIGN CHOICE: the operands
are kept as tokens, not as values, so that the errors of those rules belong to the mnemonics' meanings (log entry 4). -/
inductive Instr where
  | add (ops : List Token)
  | sub (ops : List Token)
  | and (ops : List Token)
  | or (ops : List Token)
  | xor (ops : List Token)
  | sll (ops : List Token)
  | srl (ops : List Token)
  | sra (ops : List Token)
  | stl (ops : List Token)
  | stlu (ops : List Token)
  | addi (ops : List Token)
  | andi (ops : List Token)
  | ori (ops : List Token)
  | xori (ops : List Token)
  | slti (ops : List Token)
  | sltiu (ops : List Token)
  | slli (ops : List Token)
  | srli (ops : List Token)
  | srai (ops : List Token)
  | lui (ops : List Token)
  | auipc (ops : List Token)
deriving DecidableEq, Repr

/-- What the front end makes of a line: no tokens, a first token outside the table, or an instruction
(30_encoding.md R44, R49, R43). -/
inductive Fetched where
  | blank
  | unknown
  | instr (i : Instr)
deriving DecidableEq, Repr

end Sys2Proof
end

