-- ==== Sys2Proof/Machine/Flags.lean ====
section
/-!
DEFINITION. The one status value of the block: the immediate overflow indication (30_encoding.md R60, 10_state.md R21).
-/

namespace Sys2Proof.Machine

/-- `Ovf(v, n)`: the value cannot be read back from its `n` masked bits under either the signed or the unsigned reading
(30_encoding.md R60). -/
def ovf (n : Nat) (v : Int) : Bool := decide (v < -(2 : Int) ^ (n - 1) ∨ v > (2 : Int) ^ n - 1)

end Sys2Proof.Machine
end

