-- ==== Sys2Proof/Config.lean ====
section
/-!
DEFINITION. The two questions the spec keeps OPEN (00_scope.md R8), as constants with no body: nothing in Lean can
evaluate them. The block depends on neither (20_memory.md R29; 60_exceptions.md R102); only the host's and a consumer's
views of a run use them. The third parameter, UNIFORM_IMM_HEX, is a field of State (log entry 2).
-/

namespace Sys2Proof

/-- The two byte orders a consumer may store a word in. -/
inductive ByteOrder where
  | littleEndian
  | bigEndian
deriving DecidableEq, Repr, Inhabited

/-- `WORD_BYTE_ORDER`, OPEN (00_scope.md R8, 20_memory.md R29, 92_eei_decisions.md D16; log entry 10). -/
opaque Config.wordByteOrder : ByteOrder

/-- `DIAG_FORMAT`, OPEN (00_scope.md R8, 60_exceptions.md R102, 92_eei_decisions.md D13; log entry 11): the text, if any,
the host writes on its diagnostic channel for a rejected line. `none`: it reports nothing ("may report"). -/
opaque Config.diagFormat : ErrKind → Pos → Option Text

end Sys2Proof
end

