-- ==== Sys2Proof/Machine/Formats.lean ====
section
/-!
DEFINITION. The field inserter (30_encoding.md R61-R63), the fields read back out of a word, and the renderings of a
word: the 32 characters of R65 and, for a consumer, its four bytes (20_memory.md R29).
-/

namespace Sys2Proof.Machine

/-- R-type layout, most significant field first (30_encoding.md R61). -/
def packR (funct7 : BitVec 7) (rs2 rs1 : Reg) (funct3 : BitVec 3) (rd : Reg) (opcode : BitVec 7) : Word :=
  funct7 ++ rs2 ++ rs1 ++ funct3 ++ rd ++ opcode

/-- I-type layout (30_encoding.md R62). -/
def packI (imm : BitVec 12) (rs1 : Reg) (funct3 : BitVec 3) (rd : Reg) (opcode : BitVec 7) : Word :=
  imm ++ rs1 ++ funct3 ++ rd ++ opcode

/-- U-type layout: the 20-bit operand stands unshifted in bits 31:12 (30_encoding.md R63, R64). -/
def packU (imm : BitVec 20) (rd : Reg) (opcode : BitVec 7) : Word :=
  imm ++ rd ++ opcode

/-- Bits 6:0. -/
def opcodeField (w : Word) : BitVec 7 := w.extractLsb' 0 7
/-- Bits 11:7. -/
def rdField (w : Word) : Reg := w.extractLsb' 7 5
/-- Bits 14:12. -/
def funct3Field (w : Word) : BitVec 3 := w.extractLsb' 12 3
/-- Bits 19:15. -/
def rs1Field (w : Word) : Reg := w.extractLsb' 15 5
/-- Bits 24:20. -/
def rs2Field (w : Word) : Reg := w.extractLsb' 20 5
/-- Bits 31:25. -/
def funct7Field (w : Word) : BitVec 7 := w.extractLsb' 25 7
/-- Bits 31:20, `imm[11:0]` of I-type. -/
def imm12Field (w : Word) : BitVec 12 := w.extractLsb' 20 12
/-- Bits 31:12, `imm[19:0]` of U-type. -/
def imm20Field (w : Word) : BitVec 20 := w.extractLsb' 12 20

/-- `Render(w)`: 32 characters, character `k` is `1` exactly when bit `31 - k` is (30_encoding.md R65). -/
def render (w : Word) : Text :=
  (List.range 32).map fun k => if w.getLsbD (31 - k) then '1' else '0'

/-- What the host emits for one result: one rendered line for `OK`, nothing otherwise (20_memory.md R32,
60_exceptions.md R102). -/
def emit : Result → List Text
  | .ok w _ => [render w]
  | .blank => []
  | .err _ _ => []

/-- The output stream of a result list, in order (20_memory.md R32). -/
def emitAll (rs : List Result) : List Text := rs.flatMap emit

/-- The four bytes a consumer stores for `w`, lowest address first, under a byte order (20_memory.md R29). -/
def wordBytes (order : ByteOrder) (w : Word) : List Byte :=
  match order with
  | .littleEndian => [w.extractLsb' 0 8, w.extractLsb' 8 8, w.extractLsb' 16 8, w.extractLsb' 24 8]
  | .bigEndian => [w.extractLsb' 24 8, w.extractLsb' 16 8, w.extractLsb' 8 8, w.extractLsb' 0 8]

end Sys2Proof.Machine
end

