-- ==== Sys2Proof/Machine/Operands.lean ====
section
/-!
DEFINITION. The two operand forms of the block: the register decoder (30_encoding.md R52, R53) and the immediate parser
and masker (R54-R59), with the numeral spellings they rest on.
-/

namespace Sys2Proof.Machine

/-- The decimal digit character of `d`, for `d < 10`. -/
def digitChar (d : Nat) : Char := Char.ofNat (48 + d)

/-- The decimal digits of `n` in front of `acc`; `fuel` above `n` is always enough. -/
def decDigits : Nat → Nat → Text → Text
  | 0, _, acc => acc
  | fuel + 1, n, acc =>
    if n < 10 then digitChar n :: acc else decDigits fuel (n / 10) (digitChar (n % 10) :: acc)

/-- `dec(n)`, the decimal spelling of `n` without leading zeros (10_state.md R17). -/
def dec (n : Nat) : Text := decDigits (n + 1) n []

/-- The register name `"x" @ dec(n)` (10_state.md R17). -/
def regName (n : Nat) : Token := 'x' :: dec n

/-- The register-name table: exactly 32 names, one-to-one with the indices 0..31 (10_state.md R17). -/
def regNames : List Token := (List.range 32).map regName

/-- `RegDecode` without its error: the index whose name the token is, if any (30_encoding.md R52). -/
def regDecode (t : Token) : Option Reg :=
  (List.range 32).findSome? fun n => if t = regName n then some (BitVec.ofNat 5 n) else none

/-- The value of an ASCII decimal digit `0`..`9` (30_encoding.md R54). -/
def decDigit (c : Char) : Option Nat :=
  if 48 ≤ c.toNat ∧ c.toNat ≤ 57 then some (c.toNat - 48) else none

/-- The value of a hexadecimal digit `[0-9a-fA-F]` (30_encoding.md R55). -/
def hexDigit (c : Char) : Option Nat :=
  if 48 ≤ c.toNat ∧ c.toNat ≤ 57 then some (c.toNat - 48)
  else if 97 ≤ c.toNat ∧ c.toNat ≤ 102 then some (c.toNat - 87)
  else if 65 ≤ c.toNat ∧ c.toNat ≤ 70 then some (c.toNat - 55)
  else none

/-- The digits of `t` read in `base` after the digits already worth `acc`; none at the first character that is no digit. -/
def digitsValue (base : Nat) (digit : Char → Option Nat) : Nat → Text → Option Nat
  | acc, [] => some acc
  | acc, c :: cs =>
    match digit c with
    | none => none
    | some d => digitsValue base digit (acc * base + d) cs

/-- One or more digits in `base` (the `+` of the grammars of 30_encoding.md R54 and R55). -/
def digits (base : Nat) (digit : Char → Option Nat) (t : Text) : Option Nat :=
  match t with
  | [] => none
  | c :: cs => digitsValue base digit 0 (c :: cs)

/-- `ParseDec(t)`: `[+-]?[0-9]+`, the sign times the decimal value (30_encoding.md R54). -/
def parseDec (t : Text) : Option Int :=
  match t with
  | [] => none
  | c :: cs =>
    if c = '-' then (digits 10 decDigit cs).map fun n : Nat => -(n : Int)
    else if c = '+' then (digits 10 decDigit cs).map fun n : Nat => (n : Int)
    else (digits 10 decDigit (c :: cs)).map fun n : Nat => (n : Int)

/-- `ParseHex(s)`: `[0-9a-fA-F]+` (30_encoding.md R55). -/
def parseHex (s : Text) : Option Int := (digits 16 hexDigit s).map fun n : Nat => (n : Int)

/-- `starts_with(t, "0x")` (00_scope.md R10, 30_encoding.md R56); the prefix is lowercase (R57). -/
def startsWithHexPrefix (t : Text) : Bool := t.take 2 == ['0', 'x']

/-- `ParseImm(cfg, fmt, t, _)` without its error (30_encoding.md R56): U-type takes hexadecimal after `0x`; the other
format does so only when `UNIFORM_IMM_HEX` is true. -/
def parseImm (uniformImmHex : Bool) (fmt : Format) (t : Token) : Option Int :=
  match fmt with
  | .U => if startsWithHexPrefix t then parseHex (t.drop 2) else parseDec t
  | _ => if uniformImmHex && startsWithHexPrefix t then parseHex (t.drop 2) else parseDec t

/-- `Mask(v, n) = (v mod 2^n) : Bits_n` with the Euclidean `mod` (30_encoding.md R59, 00_scope.md R9). -/
def mask (n : Nat) (v : Int) : BitVec n := BitVec.ofNat n (v % (2 : Int) ^ n).toNat

end Sys2Proof.Machine
end

