-- ==== Sys2Proof/WellFormed.lean ====
section
/-!
DEFINITION. Well-formedness of an instruction, as the syntax of 30_encoding.md R69 has it: the operand count of the
format (R51), register tokens in the register positions (R50, R52) and a numeral of the format's grammar in the immediate
position (R56). It depends on the parameter UNIFORM_IMM_HEX, as `iimm` of R69 does.
-/

namespace Sys2Proof

/-- The token is one of `x0`..`x31` (30_encoding.md R53). -/
def isRegister (t : Token) : Bool := Machine.regNames.contains t

/-- The token is a numeral of the format's grammar (30_encoding.md R56). -/
def isImmediate (uniformImmHex : Bool) (fmt : Format) (t : Token) : Bool :=
  (Machine.parseImm uniformImmHex fmt t).isSome

/-- R-type operands: `rd, rs1, rs2` (30_encoding.md R50). -/
def wellFormedR : List Token → Bool
  | [rd, rs1, rs2] => isRegister rd && isRegister rs1 && isRegister rs2
  | _ => false

/-- I-type operands: `rd, rs1, imm` (30_encoding.md R50). -/
def wellFormedI (uniformImmHex : Bool) : List Token → Bool
  | [rd, rs1, imm] => isRegister rd && isRegister rs1 && isImmediate uniformImmHex .I imm
  | _ => false

/-- U-type operands: `rd, imm` (30_encoding.md R50). -/
def wellFormedU (uniformImmHex : Bool) : List Token → Bool
  | [rd, imm] => isRegister rd && isImmediate uniformImmHex .U imm
  | _ => false

/-- The instruction is one the syntax of 30_encoding.md R69 accepts, under the value of the parameter. -/
def Instr.wellFormed (uniformImmHex : Bool) : Instr → Bool
  | .add ops => wellFormedR ops
  | .sub ops => wellFormedR ops
  | .and ops => wellFormedR ops
  | .or ops => wellFormedR ops
  | .xor ops => wellFormedR ops
  | .sll ops => wellFormedR ops
  | .srl ops => wellFormedR ops
  | .sra ops => wellFormedR ops
  | .stl ops => wellFormedR ops
  | .stlu ops => wellFormedR ops
  | .addi ops => wellFormedI uniformImmHex ops
  | .andi ops => wellFormedI uniformImmHex ops
  | .ori ops => wellFormedI uniformImmHex ops
  | .xori ops => wellFormedI uniformImmHex ops
  | .slti ops => wellFormedI uniformImmHex ops
  | .sltiu ops => wellFormedI uniformImmHex ops
  | .slli ops => wellFormedI uniformImmHex ops
  | .srli ops => wellFormedI uniformImmHex ops
  | .srai ops => wellFormedI uniformImmHex ops
  | .lui ops => wellFormedU uniformImmHex ops
  | .auipc ops => wellFormedU uniformImmHex ops

end Sys2Proof
end

