-- ==== Sys2Proof/Decode.lean ====
section
/-!
DEFINITION. Decoding, total on any input.
1. The block's own decoder: from a line of text to an instruction (tokenizer, lookup; 30_encoding.md R40-R49).
2. `Encode` as the spec writes it, one pure function of the parameter and the line (R39), and `encode`, its word for
   a well-formed instruction.
3. The reader of encoded words the host asks for. The block itself is encode-only (00_scope.md R4), so this part is the
   model's own (log entry 5), read from spec/opcode_table.json.
-/

namespace Sys2Proof

open Sys2Proof.Machine

/-! ## The tokenizer -/

/-- `WS`: exactly six characters (30_encoding.md R41). -/
def isWhitespace (c : Char) : Bool :=
  c.toNat == 0x20 || c.toNat == 0x09 || c.toNat == 0x0A || c.toNat == 0x0B || c.toNat == 0x0C || c.toNat == 0x0D

/-- `SEP`: white space and the comma (30_encoding.md R40; 90_conflicts.md C3). -/
def isSeparator (c : Char) : Bool := isWhitespace c || c == ','

/-- The loop of 30_encoding.md R42, with `cur` the characters of the token being read. -/
def tokensFrom (cur : Token) : Line → List Token
  | [] => if cur = [] then [] else [cur]
  | c :: cs =>
    if isSeparator c then
      if cur = [] then tokensFrom [] cs else cur :: tokensFrom [] cs
    else tokensFrom (cur ++ [c]) cs

/-- `Tokens(line)` (30_encoding.md R42). -/
def tokens (line : Line) : List Token := tokensFrom [] line

/-! ## The instruction table -/

/-- The key of a mnemonic: its spelling in the table (30_encoding.md R47). -/
def Mnemonic.key : Mnemonic → Token
  | .add => "add".toList
  | .sub => "sub".toList
  | .and => "and".toList
  | .or => "or".toList
  | .xor => "xor".toList
  | .sll => "sll".toList
  | .srl => "srl".toList
  | .sra => "sra".toList
  | .stl => "stl".toList
  | .stlu => "stlu".toList
  | .addi => "addi".toList
  | .andi => "andi".toList
  | .ori => "ori".toList
  | .xori => "xori".toList
  | .slti => "slti".toList
  | .sltiu => "sltiu".toList
  | .slli => "slli".toList
  | .srli => "srli".toList
  | .srai => "srai".toList
  | .lui => "lui".toList
  | .auipc => "auipc".toList

/-- The 21 keys' mnemonics, in the order of 30_encoding.md R47. -/
def Mnemonic.all : List Mnemonic :=
  [.add, .sub, .and, .or, .xor, .sll, .srl, .sra, .stl, .stlu,
   .addi, .andi, .ori, .xori, .slti, .sltiu, .slli, .srli, .srai, .lui, .auipc]

/-- `Lookup(m)`: the entry whose key equals the token exactly (30_encoding.md R46). -/
def lookup (t : Token) : Option Mnemonic := Mnemonic.all.find? fun m => t == m.key

/-- The instruction table (30_encoding.md R47). The funct values that the spec itself supplies from general knowledge
are in log entry 9. -/
def descriptor : Mnemonic → Descriptor
  | .add => .r 0b0110011 0b000 0b0000000
  | .sub => .r 0b0110011 0b000 0b0100000
  | .and => .r 0b0110011 0b111 0b0000000
  | .or => .r 0b0110011 0b110 0b0000000
  | .xor => .r 0b0110011 0b100 0b0000000
  | .sll => .r 0b0110011 0b001 0b0000000
  | .srl => .r 0b0110011 0b101 0b0000000
  | .sra => .r 0b0110011 0b101 0b0100000
  | .stl => .r 0b0110011 0b010 0b0000000
  | .stlu => .r 0b0110011 0b011 0b0000000
  | .addi => .i 0b0010011 0b000
  | .andi => .i 0b0010011 0b111
  | .ori => .i 0b0010011 0b110
  | .xori => .i 0b0010011 0b100
  | .slti => .i 0b0010011 0b010
  | .sltiu => .i 0b0010011 0b011
  | .slli => .i 0b0010011 0b001
  | .srli => .i 0b0010011 0b101
  | .srai => .i 0b0010011 0b101
  | .lui => .u 0b0110111
  | .auipc => .u 0b0010111

/-- The format tag (30_encoding.md R48). -/
def Descriptor.format : Descriptor → Format
  | .r _ _ _ => .R
  | .i _ _ => .I
  | .u _ => .U

/-- The primary opcode (10_state.md R16). -/
def Descriptor.opcode : Descriptor → BitVec 7
  | .r opcode _ _ => opcode
  | .i opcode _ => opcode
  | .u opcode => opcode

/-- `funct3 : Option Bits_3` (10_state.md R16). -/
def Descriptor.funct3 : Descriptor → Option (BitVec 3)
  | .r _ funct3 _ => some funct3
  | .i _ funct3 => some funct3
  | .u _ => none

/-- `funct7 : Option Bits_7` (10_state.md R16). -/
def Descriptor.funct7 : Descriptor → Option (BitVec 7)
  | .r _ _ funct7 => some funct7
  | .i _ _ => none
  | .u _ => none

/-- The operand count the format requires (30_encoding.md R51). -/
def Format.operandCount : Format → Nat
  | .R => 3
  | .I => 3
  | .U => 2

/-! ## From a line to an instruction -/

/-- The instruction of a mnemonic with its operand tokens. -/
def Mnemonic.instr (m : Mnemonic) (ops : List Token) : Instr :=
  match m with
  | .add => .add ops
  | .sub => .sub ops
  | .and => .and ops
  | .or => .or ops
  | .xor => .xor ops
  | .sll => .sll ops
  | .srl => .srl ops
  | .sra => .sra ops
  | .stl => .stl ops
  | .stlu => .stlu ops
  | .addi => .addi ops
  | .andi => .andi ops
  | .ori => .ori ops
  | .xori => .xori ops
  | .slti => .slti ops
  | .sltiu => .sltiu ops
  | .slli => .slli ops
  | .srli => .srli ops
  | .srai => .srai ops
  | .lui => .lui ops
  | .auipc => .auipc ops

/-- The mnemonic of an instruction. -/
def Instr.mnemonic : Instr → Mnemonic
  | .add _ => .add
  | .sub _ => .sub
  | .and _ => .and
  | .or _ => .or
  | .xor _ => .xor
  | .sll _ => .sll
  | .srl _ => .srl
  | .sra _ => .sra
  | .stl _ => .stl
  | .stlu _ => .stlu
  | .addi _ => .addi
  | .andi _ => .andi
  | .ori _ => .ori
  | .xori _ => .xori
  | .slti _ => .slti
  | .sltiu _ => .sltiu
  | .slli _ => .slli
  | .srli _ => .srli
  | .srai _ => .srai
  | .lui _ => .lui
  | .auipc _ => .auipc

/-- The operand tokens of an instruction, position 1 first (30_encoding.md R43). -/
def Instr.ops : Instr → List Token
  | .add ops => ops
  | .sub ops => ops
  | .and ops => ops
  | .or ops => ops
  | .xor ops => ops
  | .sll ops => ops
  | .srl ops => ops
  | .sra ops => ops
  | .stl ops => ops
  | .stlu ops => ops
  | .addi ops => ops
  | .andi ops => ops
  | .ori ops => ops
  | .xori ops => ops
  | .slti ops => ops
  | .sltiu ops => ops
  | .slli ops => ops
  | .srli ops => ops
  | .srai ops => ops
  | .lui ops => ops
  | .auipc ops => ops

/-- The block's decoder of a line: no tokens (R44), a first token outside the table (R49), or the instruction its tokens
name (30_encoding.md R43). -/
def decodeLine (line : Line) : Fetched :=
  match tokens line with
  | [] => .blank
  | m :: ops =>
    match lookup m with
    | none => .unknown
    | some k => .instr (k.instr ops)

/-! ## `Encode`, as one pure function -/

/-- `RegDecode(t, pos)` with its error (30_encoding.md R52). -/
def regOperand (t : Token) (pos : Pos) : Except (ErrKind × Pos) Reg :=
  match regDecode t with
  | some r => .ok r
  | none => .error (.invalidRegister, pos)

/-- `ParseImm(cfg, fmt, t, pos)` with its error (30_encoding.md R56). -/
def immOperand (uniformImmHex : Bool) (fmt : Format) (t : Token) (pos : Pos) : Except (ErrKind × Pos) Int :=
  match parseImm uniformImmHex fmt t with
  | some v => .ok v
  | none => .error (.malformedImmediate, pos)

/-- The format multiplexer with the operand count check and the three encoders (30_encoding.md R39, R50, R51). -/
def encodeOps (uniformImmHex : Bool) (d : Descriptor) (ops : List Token) : Except (ErrKind × Pos) (Word × Bool) :=
  match d, ops with
  | .r opcode funct3 funct7, [t1, t2, t3] => do
    let rd ← regOperand t1 1
    let rs1 ← regOperand t2 2
    let rs2 ← regOperand t3 3
    return (packR funct7 rs2 rs1 funct3 rd opcode, false)
  | .i opcode funct3, [t1, t2, t3] => do
    let rd ← regOperand t1 1
    let rs1 ← regOperand t2 2
    let v ← immOperand uniformImmHex .I t3 3
    return (packI (mask 12 v) rs1 funct3 rd opcode, ovf 12 v)
  | .u opcode, [t1, t2] => do
    let rd ← regOperand t1 1
    let v ← immOperand uniformImmHex .U t2 2
    return (packU (mask 20 v) rd opcode, ovf 20 v)
  | _, _ => .error (.operandCountMismatch, 0)

/-- The result of encoding an instruction. -/
def Instr.result (uniformImmHex : Bool) (i : Instr) : Result :=
  match encodeOps uniformImmHex (descriptor i.mnemonic) i.ops with
  | .ok (w, o) => .ok w o
  | .error (kind, pos) => .err kind pos

/-- `Encode(cfg, line)`, the block's whole function (30_encoding.md R39). -/
def encodeLine (uniformImmHex : Bool) (line : Line) : Result :=
  match decodeLine line with
  | .blank => .blank
  | .unknown => .err .unknownMnemonic 0
  | .instr i => i.result uniformImmHex

/-- The encoder: the word of a well-formed instruction, from the table and the layouts of 30_encoding.md R47, R61-R63;
none for an instruction that is not well-formed. -/
def encode (uniformImmHex : Bool) (i : Instr) : Option Word :=
  match encodeOps uniformImmHex (descriptor i.mnemonic) i.ops with
  | .ok (w, _) => some w
  | .error _ => none

/-! ## Reading an encoded word -/

/-- The rows of spec/opcode_table.json (30_encoding.md R66). -/
def opcodeRows : List OpcodeRow :=
  [⟨.add, 0x00000033, 0xFE00707F⟩, ⟨.sub, 0x40000033, 0xFE00707F⟩, ⟨.and, 0x00007033, 0xFE00707F⟩,
   ⟨.or, 0x00006033, 0xFE00707F⟩, ⟨.xor, 0x00004033, 0xFE00707F⟩, ⟨.sll, 0x00001033, 0xFE00707F⟩,
   ⟨.srl, 0x00005033, 0xFE00707F⟩, ⟨.sra, 0x40005033, 0xFE00707F⟩, ⟨.stl, 0x00002033, 0xFE00707F⟩,
   ⟨.stlu, 0x00003033, 0xFE00707F⟩] ++
  [⟨.addi, 0x00000013, 0x0000707F⟩, ⟨.andi, 0x00007013, 0x0000707F⟩, ⟨.ori, 0x00006013, 0x0000707F⟩,
   ⟨.xori, 0x00004013, 0x0000707F⟩, ⟨.slti, 0x00002013, 0x0000707F⟩, ⟨.sltiu, 0x00003013, 0x0000707F⟩,
   ⟨.slli, 0x00001013, 0x0000707F⟩, ⟨.srli, 0x00005013, 0x0000707F⟩, ⟨.srai, 0x00005013, 0x0000707F⟩] ++
  [⟨.lui, 0x00000037, 0x0000007F⟩, ⟨.auipc, 0x00000017, 0x0000007F⟩]

/-- The word is of the row's pattern. -/
def OpcodeRow.covers (row : OpcodeRow) (w : Word) : Bool := w &&& row.mask == row.pattern

/-- The mnemonics whose words `w` may be. By 30_encoding.md R66 that is at most one, but for `srli` and `srai`. -/
def mnemonicsOf (w : Word) : List Mnemonic := (opcodeRows.filter fun row => row.covers w).map OpcodeRow.mnemonic

/-- A mnemonic with the operands its format has in `w`, in the spelling the reader chooses (DESIGN CHOICE, log entry 5):
register names, and immediates as unsigned decimal numerals without leading zeros. -/
def instrOfWord (m : Mnemonic) (w : Word) : Instr :=
  match (descriptor m).format with
  | .R => m.instr [regName (rdField w).toNat, regName (rs1Field w).toNat, regName (rs2Field w).toNat]
  | .I => m.instr [regName (rdField w).toNat, regName (rs1Field w).toNat, dec (imm12Field w).toNat]
  | .U => m.instr [regName (rdField w).toNat, dec (imm20Field w).toNat]

/-- The reader of words: the instruction of the first row that covers the word, none where no row does. The words of
`srai` are the words of `srli` (30_encoding.md R66), and the reader answers `srli` for them (log entry 5). -/
def decodeWord (w : Word) : Option Instr :=
  match mnemonicsOf w with
  | [] => none
  | m :: _ => some (instrOfWord m w)

/-- What the reader answers for a word of this mnemonic: itself, but `srli` for `srai` (30_encoding.md R66). -/
def Mnemonic.readBack : Mnemonic → Mnemonic
  | .srai => .srli
  | m => m

/-- An immediate token re-spelled as the reader spells it: the masked value as an unsigned decimal numeral. -/
def respellImm (uniformImmHex : Bool) (fmt : Format) (n : Nat) (t : Token) : Token :=
  match parseImm uniformImmHex fmt t with
  | some v => dec (mask n v).toNat
  | none => t

/-- An instruction re-spelled as the reader spells it. -/
def Instr.respell (uniformImmHex : Bool) (i : Instr) : Instr :=
  match (descriptor i.mnemonic).format, i.ops with
  | .I, [rd, rs1, imm] => i.mnemonic.readBack.instr [rd, rs1, respellImm uniformImmHex .I 12 imm]
  | .U, [rd, imm] => i.mnemonic.readBack.instr [rd, respellImm uniformImmHex .U 20 imm]
  | _, ops => i.mnemonic.readBack.instr ops

/-- The line of an instruction: its key and its operand tokens, one space before each token. -/
def Instr.line (i : Instr) : Line := i.mnemonic.key ++ i.ops.flatMap fun t => ' ' :: t

/-- The word of an opcode-table row's bits: every word of the table has 32 bits (00_scope.md R7), and bits above `nbits`
are 0. -/
def tableWord (nbits w : Nat) : Option Word :=
  if nbits ≤ 32 then some (BitVec.ofNat 32 (w % 2 ^ nbits)) else none

/-- The instruction the reader reads from an instruction whose bits are `w`, numbered as spec/opcode_table.json numbers
them. -/
def decodeTableWord (nbits w : Nat) : Option Instr :=
  match tableWord nbits w with
  | some word => decodeWord word
  | none => none

/-- The line whose evaluation runs the instruction read from these bits. Bits that no row covers have no line of their
own; they are given the line of their 32 binary digits, which is an unknown mnemonic (30_encoding.md R67; log entry 5). -/
def lineOfTableWord (nbits w : Nat) : Line :=
  match decodeTableWord nbits w with
  | some i => i.line
  | none => render (BitVec.ofNat 32 (w % 2 ^ nbits))

end Sys2Proof
end

