-- ==== Sys2Proof/Machine/State.lean ====
section
/-!
DEFINITION. The state of a run, the reasons a step could stop, and the state after reset.
The block holds no state (10_state.md R15); what is here is the run of 70_reset_and_hazards.md R119 and the build-time
parameter it is made under. Log entries 1, 2 and 3.
-/

namespace Sys2Proof.Machine

/-- A run of the block: the parameter, the lines still to be evaluated, and what the run shows so far
(70_reset_and_hazards.md R119). Plain data. -/
structure State where
  /-- `UNIFORM_IMM_HEX` (10_state.md R18). No step writes it (70_reset_and_hazards.md R113). -/
  uniformImmHex : Bool
  /-- The lines not evaluated yet, the next one first (20_memory.md R33). -/
  pending : List Line
  /-- The result list, oldest first (70_reset_and_hazards.md R119). -/
  results : List Result
  /-- The output stream the host writes, oldest line first (20_memory.md R32). -/
  outputStream : List Text
deriving DecidableEq, Repr

/-- Reasons for a fault. No step raises one: every evaluation gives a result (60_exceptions.md R109, R110). -/
inductive Fault where
  /-- A consumer reading the output ports met a code that is never driven (30_encoding.md R38, 60_exceptions.md R94;
  93_implementation_defined.md A10 asks for this fault). Raised by `readPorts`. Safe: no realisation shows such a code. -/
  | undrivenPortCode
deriving DecidableEq, Repr

/-- Reasons for a refusal. -/
inductive Refusal where
  /-- An instruction that has no meaning in the model yet. Raised by no arm of `exec`: all have their meanings. Safe. -/
  | notModelled (mnemonic : String)
  /-- A consumer asked for the word of a result that is not `OK` (93_implementation_defined.md A9 asks for this refusal:
  "A model must not read one or default it to 0"). Raised by `wordOf`. Safe. -/
  | noWord
deriving DecidableEq, Repr

/-- The run right after reset: the parameter at its default (10_state.md R25), and, DESIGN CHOICE (log entry 3), no line
handed over yet, no result and an empty output stream. -/
def State.reset : State :=
  { uniformImmHex := false, pending := [], results := [], outputStream := [] }

end Sys2Proof.Machine
end

