-- ==== Sys2Proof/Machine/Ops.lean ====
section
/-!
DEFINITION. The shared operations: ending an evaluation with a result, raising an error (the block's "trap entry",
60_exceptions.md R101), decoding an operand or raising its error, and the three format encoders EncR, EncI and EncU
(40_r_type.md R70, 41_i_type.md R81, 42_u_type.md R91).
There is no return from an error: no handler and no nesting exist (60_exceptions.md R103), and the host goes on to the
next line by itself (R102).
-/

namespace Sys2Proof.Machine

/-- The three outcomes of a step of this machine. -/
abbrev StepOutcome := Host.Outcome State Fault Refusal

/-- The evaluation of a line ends with `r`: the run's result list grows by it (70_reset_and_hazards.md R119), and the host
emits what belongs to it (20_memory.md R32, 60_exceptions.md R102). Nothing else changes. -/
def State.record (s : State) (r : Result) : State :=
  { s with results := s.results ++ [r], outputStream := s.outputStream ++ emit r }

/-- `return OK(w, ovf)` (00_scope.md R11). -/
def returnOk (w : Word) (overflow : Bool) (s : State) : StepOutcome := .next (s.record (.ok w overflow))

/-- `return BLANK` (30_encoding.md R44). -/
def returnBlank (s : State) : StepOutcome := .next (s.record .blank)

/-- Raising an error: the evaluation ends with `ERR(kind, pos)` and nothing else happens (60_exceptions.md R101). -/
def raise (kind : ErrKind) (pos : Pos) (s : State) : StepOutcome := .next (s.record (.err kind pos))

/-- `RegDecode(t, pos)`: the register, or `InvalidRegister` at `pos` (30_encoding.md R52, 60_exceptions.md R96). -/
def withRegister (t : Token) (pos : Pos) (s : State) (go : Reg → StepOutcome) : StepOutcome :=
  match regDecode t with
  | some r => go r
  | none => raise .invalidRegister pos s

/-- `ParseImm(cfg, fmt, t, pos)`: the value, or `MalformedImmediate` at `pos` (30_encoding.md R56, 60_exceptions.md
R97). -/
def withImmediate (fmt : Format) (t : Token) (pos : Pos) (s : State) (go : Int → StepOutcome) : StepOutcome :=
  match parseImm s.uniformImmHex fmt t with
  | some v => go v
  | none => raise .malformedImmediate pos s

/-- `EncR` behind its operand count check (40_r_type.md R70, 30_encoding.md R51). -/
def encR (opcode : BitVec 7) (funct3 : BitVec 3) (funct7 : BitVec 7) (ops : List Token) (s : State) : StepOutcome :=
  match ops with
  | [t1, t2, t3] =>
    withRegister t1 1 s fun rd =>
    withRegister t2 2 s fun rs1 =>
    withRegister t3 3 s fun rs2 =>
    returnOk (packR funct7 rs2 rs1 funct3 rd opcode) false s
  | _ => raise .operandCountMismatch 0 s

/-- `EncI` behind its operand count check (41_i_type.md R81, 30_encoding.md R51). -/
def encI (opcode : BitVec 7) (funct3 : BitVec 3) (ops : List Token) (s : State) : StepOutcome :=
  match ops with
  | [t1, t2, t3] =>
    withRegister t1 1 s fun rd =>
    withRegister t2 2 s fun rs1 =>
    withImmediate .I t3 3 s fun v =>
    returnOk (packI (mask 12 v) rs1 funct3 rd opcode) (ovf 12 v) s
  | _ => raise .operandCountMismatch 0 s

/-- `EncU` behind its operand count check (42_u_type.md R91, 30_encoding.md R51). -/
def encU (opcode : BitVec 7) (ops : List Token) (s : State) : StepOutcome :=
  match ops with
  | [t1, t2] =>
    withRegister t1 1 s fun rd =>
    withImmediate .U t2 2 s fun v =>
    returnOk (packU (mask 20 v) rd opcode) (ovf 20 v) s
  | _ => raise .operandCountMismatch 0 s

/-- The host hands over the next line (20_memory.md R33); none when the run has no further line. -/
def takeLine (s : State) : Option (Line × State) :=
  match s.pending with
  | [] => none
  | line :: rest => some (line, { s with pending := rest })

/-- No line is left: the run has ended (70_reset_and_hazards.md R119) and a step changes nothing. DESIGN CHOICE (log
entry 6). -/
def idle (s : State) : StepOutcome := .next s

end Sys2Proof.Machine
end

