-- ==== Sys2Proof/Machine/IType.lean ====
section
/-!
DEFINITION. The meanings of the nine I-type mnemonics, each with the field values of its own rule of 41_i_type.md.
-/

namespace Sys2Proof.Machine

/-- `addi rd, rs1, imm` (41_i_type.md R82). -/
def execAddi (ops : List Token) (s : State) : StepOutcome := encI 0b0010011 0b000 ops s

/-- `andi rd, rs1, imm` (41_i_type.md R83). -/
def execAndi (ops : List Token) (s : State) : StepOutcome := encI 0b0010011 0b111 ops s

/-- `ori rd, rs1, imm` (41_i_type.md R84). -/
def execOri (ops : List Token) (s : State) : StepOutcome := encI 0b0010011 0b110 ops s

/-- `xori rd, rs1, imm` (41_i_type.md R85). -/
def execXori (ops : List Token) (s : State) : StepOutcome := encI 0b0010011 0b100 ops s

/-- `slti rd, rs1, imm` (41_i_type.md R86). -/
def execSlti (ops : List Token) (s : State) : StepOutcome := encI 0b0010011 0b010 ops s

/-- `sltiu rd, rs1, imm` (41_i_type.md R87). -/
def execSltiu (ops : List Token) (s : State) : StepOutcome := encI 0b0010011 0b011 ops s

/-- `slli rd, rs1, imm` (41_i_type.md R88). -/
def execSlli (ops : List Token) (s : State) : StepOutcome := encI 0b0010011 0b001 ops s

/-- `srli rd, rs1, imm` (41_i_type.md R89). -/
def execSrli (ops : List Token) (s : State) : StepOutcome := encI 0b0010011 0b101 ops s

/-- `srai rd, rs1, imm` (41_i_type.md R90). It has no funct7: its word is the `srli` word of the same operands
(90_conflicts.md C1). -/
def execSrai (ops : List Token) (s : State) : StepOutcome := encI 0b0010011 0b101 ops s

end Sys2Proof.Machine
end

