-- ==== Sys2Proof/Machine/RType.lean ====
section
/-!
DEFINITION. The meanings of the ten R-type mnemonics, each with the field values of its own rule of 40_r_type.md.
-/

namespace Sys2Proof.Machine

/-- `add rd, rs1, rs2` (40_r_type.md R71). -/
def execAdd (ops : List Token) (s : State) : StepOutcome := encR 0b0110011 0b000 0b0000000 ops s

/-- `sub rd, rs1, rs2` (40_r_type.md R72). -/
def execSub (ops : List Token) (s : State) : StepOutcome := encR 0b0110011 0b000 0b0100000 ops s

/-- `and rd, rs1, rs2` (40_r_type.md R73). -/
def execAnd (ops : List Token) (s : State) : StepOutcome := encR 0b0110011 0b111 0b0000000 ops s

/-- `or rd, rs1, rs2` (40_r_type.md R74). -/
def execOr (ops : List Token) (s : State) : StepOutcome := encR 0b0110011 0b110 0b0000000 ops s

/-- `xor rd, rs1, rs2` (40_r_type.md R75). -/
def execXor (ops : List Token) (s : State) : StepOutcome := encR 0b0110011 0b100 0b0000000 ops s

/-- `sll rd, rs1, rs2` (40_r_type.md R76). -/
def execSll (ops : List Token) (s : State) : StepOutcome := encR 0b0110011 0b001 0b0000000 ops s

/-- `srl rd, rs1, rs2` (40_r_type.md R77). -/
def execSrl (ops : List Token) (s : State) : StepOutcome := encR 0b0110011 0b101 0b0000000 ops s

/-- `sra rd, rs1, rs2` (40_r_type.md R78). -/
def execSra (ops : List Token) (s : State) : StepOutcome := encR 0b0110011 0b101 0b0100000 ops s

/-- `stl rd, rs1, rs2` (40_r_type.md R79). -/
def execStl (ops : List Token) (s : State) : StepOutcome := encR 0b0110011 0b010 0b0000000 ops s

/-- `stlu rd, rs1, rs2` (40_r_type.md R80). -/
def execStlu (ops : List Token) (s : State) : StepOutcome := encR 0b0110011 0b011 0b0000000 ops s

end Sys2Proof.Machine
end

