-- ==== Sys2Proof/Machine/UType.lean ====
section
/-!
DEFINITION. The meanings of the two U-type mnemonics, each with the field values of its own rule of 42_u_type.md.
-/

namespace Sys2Proof.Machine

/-- `lui rd, imm` (42_u_type.md R92). -/
def execLui (ops : List Token) (s : State) : StepOutcome := encU 0b0110111 ops s

/-- `auipc rd, imm` (42_u_type.md R93). -/
def execAuipc (ops : List Token) (s : State) : StepOutcome := encU 0b0010111 ops s

end Sys2Proof.Machine
end

