-- ==== Sys2Proof/Machine/Dispatch.lean ====
section
/-!
DEFINITION. `exec`: one arm per constructor of `Instr`, each one call of the instruction's meaning.
-/

namespace Sys2Proof.Machine

def exec (i : Instr) (s : State) : Host.Outcome State Fault Refusal :=
  match i with
  | .add ops => Sys2Proof.Machine.execAdd ops s
  | .sub ops => Sys2Proof.Machine.execSub ops s
  | .and ops => Sys2Proof.Machine.execAnd ops s
  | .or ops => Sys2Proof.Machine.execOr ops s
  | .xor ops => Sys2Proof.Machine.execXor ops s
  | .sll ops => Sys2Proof.Machine.execSll ops s
  | .srl ops => Sys2Proof.Machine.execSrl ops s
  | .sra ops => Sys2Proof.Machine.execSra ops s
  | .stl ops => Sys2Proof.Machine.execStl ops s
  | .stlu ops => Sys2Proof.Machine.execStlu ops s
  | .addi ops => Sys2Proof.Machine.execAddi ops s
  | .andi ops => Sys2Proof.Machine.execAndi ops s
  | .ori ops => Sys2Proof.Machine.execOri ops s
  | .xori ops => Sys2Proof.Machine.execXori ops s
  | .slti ops => Sys2Proof.Machine.execSlti ops s
  | .sltiu ops => Sys2Proof.Machine.execSltiu ops s
  | .slli ops => Sys2Proof.Machine.execSlli ops s
  | .srli ops => Sys2Proof.Machine.execSrli ops s
  | .srai ops => Sys2Proof.Machine.execSrai ops s
  | .lui ops => Sys2Proof.Machine.execLui ops s
  | .auipc ops => Sys2Proof.Machine.execAuipc ops s

end Sys2Proof.Machine
end

