-- ==== Sys2Proof/Machine/Step.lean ====
section
/-!
DEFINITION. One step of a run: the host hands over the next line, the block evaluates it whole, and its one result is
recorded (20_memory.md R30, 70_reset_and_hazards.md R118).
-/

namespace Sys2Proof.Machine

/-- One step. A line with no tokens gives BLANK (30_encoding.md R44), a first token outside the table UnknownMnemonic
(R49), and any other line runs its instruction. -/
def step (s : State) : Host.Outcome State Fault Refusal :=
  match takeLine s with
  | none => idle s
  | some (line, s') =>
    match decodeLine line with
    | .blank => returnBlank s'
    | .unknown => raise .unknownMnemonic 0 s'
    | .instr i => exec i s'

/-- The state with the line of an instruction's word placed first among the pending lines, which is where `step` takes
its next instruction from (log entry 3). -/
def State.withFetchWord (s : State) (nbits w : Nat) : State :=
  { s with pending := lineOfTableWord nbits w :: s.pending }

end Sys2Proof.Machine
end

