-- ==== Sys2Proof/Machine/Driver.lean ====
section
/-!
DEFINITION. The host's and a consumer's side of a run, as far as the spec gives it: starting a run, re-sequencing the
results of parallel instances, the diagnostic channel and the stored bytes.
-/

namespace Sys2Proof.Machine

/-- The start of a run over these lines under this value of the parameter (70_reset_and_hazards.md R113, R119): nothing
else needs to be set up. -/
def State.start (uniformImmHex : Bool) (lines : List Line) : State :=
  { State.reset with uniformImmHex := uniformImmHex, pending := lines }

/-- One instance of the block evaluates line number `job.1` (20_memory.md R36, 60_exceptions.md R108). -/
def evaluateJob (uniformImmHex : Bool) (job : Nat × Line) : Nat × Result := (job.1, encodeLine uniformImmHex job.2)

/-- Put one numbered result among results in rising order of their numbers. -/
def insertByNumber (x : Nat × Result) : List (Nat × Result) → List (Nat × Result)
  | [] => [x]
  | y :: ys => if x.1 ≤ y.1 then x :: y :: ys else y :: insertByNumber x ys

/-- The host's re-sequencing on input line number (20_memory.md R36): the results in rising order of their numbers. -/
def resequence (done : List (Nat × Result)) : List Result := (done.foldr insertByNumber []).map Prod.snd

/-- The lines with their input line numbers, counted from `n`. -/
def numberLines (n : Nat) : List Line → List (Nat × Line)
  | [] => []
  | line :: rest => (n, line) :: numberLines (n + 1) rest

/-- What the host writes on its diagnostic channel for one result, under a `DIAG_FORMAT` (60_exceptions.md R102): nothing
for `OK` and `BLANK`. -/
def diagnostic (format : ErrKind → Pos → Option Text) : Result → Option Text
  | .ok _ _ => none
  | .blank => none
  | .err kind pos => format kind pos

/-- The diagnostic channel of a run: separate from the output stream, its text OPEN (60_exceptions.md R102). DESIGN CHOICE
(log entry 11): the texts stand in result order. No statement speaks of it (70_reset_and_hazards.md R120). -/
def State.diagnostics (s : State) : List Text := s.results.filterMap (diagnostic Config.diagFormat)

/-- The bytes a consumer stores for the words of a run. Within a word the order is the OPEN one (20_memory.md R29).
DESIGN CHOICE (log entry 17): the words stand one behind another in result order, with no gap, and a BLANK or an ERR has
no bytes; the spec says that where words go is outside the block (R28). No statement speaks of it. -/
def State.storedBytes (s : State) : List Byte :=
  s.results.flatMap fun r =>
    match r with
    | .ok w _ => wordBytes Config.wordByteOrder w
    | .blank => []
    | .err _ _ => []

end Sys2Proof.Machine
end

