-- ==== Sys2Proof/Machine/Ports.lean ====
section
/-!
DEFINITION. The block's output ports (30_encoding.md R38, 60_exceptions.md R94), as bits, and a consumer's reading of
them. A port that is not meaningful for a result may show anything, so driving is a relation (log entry 12).
-/

namespace Sys2Proof

/-- The operand positions an error kind is reported at (60_exceptions.md R94). -/
def ErrKind.positions : ErrKind → List Pos
  | .unknownMnemonic => [0]
  | .invalidRegister => [1, 2, 3]
  | .malformedImmediate => [2, 3]
  | .operandCountMismatch => [0]

namespace Machine

/-- The five output ports (30_encoding.md R38). -/
structure PortBits where
  resKind : BitVec 2
  word : Word
  immOverflow : Bool
  errCode : BitVec 3
  errOperand : BitVec 2
deriving DecidableEq, Repr

/-- `err_code` (60_exceptions.md R94). -/
def errCode : ErrKind → BitVec 3
  | .unknownMnemonic => 0b001
  | .invalidRegister => 0b010
  | .malformedImmediate => 0b011
  | .operandCountMismatch => 0b100

/-- The kind an `err_code` stands for; codes 000 and 101-111 are never driven (60_exceptions.md R94). -/
def errKindOf (code : BitVec 3) : Option ErrKind :=
  [ErrKind.unknownMnemonic, .invalidRegister, .malformedImmediate, .operandCountMismatch].find? fun k => errCode k == code

/-- These ports show this result: the ports that are meaningful for it (30_encoding.md R38) have its values, the others
any value. -/
def drives (r : Result) (p : PortBits) : Bool :=
  match r with
  | .ok w o => p.resKind == 0b00 && p.word == w && p.immOverflow == o
  | .blank => p.resKind == 0b01
  | .err kind pos => p.resKind == 0b10 && p.errCode == errCode kind && p.errOperand == BitVec.ofNat 2 pos.val

/-- A consumer's reading of the ports: the result they show, or a fault where they show a code that is never driven
(93_implementation_defined.md A10). -/
def readPorts (p : PortBits) : Host.Outcome Result Fault Refusal :=
  if p.resKind = 0b00 then .next (.ok p.word p.immOverflow)
  else if p.resKind = 0b01 then .next .blank
  else if p.resKind = 0b10 then
    match errKindOf p.errCode with
    | none => .fault .undrivenPortCode
    | some kind =>
      let pos : Pos := ⟨p.errOperand.toNat, p.errOperand.isLt⟩
      if kind.positions.contains pos then .next (.err kind pos) else .fault .undrivenPortCode
  else .fault .undrivenPortCode

/-- The word of a result: refused where the result is not `OK` (93_implementation_defined.md A9). -/
def wordOf (r : Result) : Host.Outcome Word Fault Refusal :=
  match r with
  | .ok w _ => .next w
  | .blank => .refused .noWord
  | .err _ _ => .refused .noWord

end Machine

end Sys2Proof
end

