-- ==== Sys2Proof/Safety.lean ====
section
/-!
DEFINITION. What counts as a safe step and a safe run, the results the spec allows, the invariant of a run, and the
input syntax of 30_encoding.md R69 as a property of lines: the terms the statements use.
-/

namespace Sys2Proof

open Sys2Proof.Machine

/-- A step that neither faults nor is refused (60_exceptions.md R109). -/
def SafeStep (s : State) : Prop := ∃ t, step s = .next t

/-- A word the block may give: one of the patterns of spec/opcode_table.json (30_encoding.md R66). -/
def ofTable (w : Word) : Bool := opcodeRows.any fun row => row.covers w

/-- A result the spec allows. An `OK` word is of a table pattern, and carries no overflow when it is an R-type word
(30_encoding.md R60, R66); an error has a position its kind is reported at (60_exceptions.md R94). -/
def Result.allowed : Result → Bool
  | .ok w o => ofTable w && (!(opcodeField w == 0b0110011) || !o)
  | .blank => true
  | .err kind pos => kind.positions.contains pos

/-- The invariant of a run: the output stream is what the result list gives, in order (20_memory.md R32), and every
result is one the spec allows. -/
def Machine.State.Inv (s : State) : Prop :=
  s.outputStream = emitAll s.results ∧ ∀ r ∈ s.results, r.allowed = true

/-- A run without errors so far: no result is an `ERR`. An `OK` result may overflow (60_exceptions.md R100). -/
def Machine.State.ErrorFree (s : State) : Prop := ∀ kind pos, Result.err kind pos ∉ s.results

/-- A run of separators, possibly empty (`sep*` of 30_encoding.md R69). -/
def Separators (t : Text) : Prop := ∀ c ∈ t, isSeparator c = true

/-- The operand tokens, each with the separators in front of it, `sep+ operand` (30_encoding.md R69). -/
def spaced (parts : List (Text × Token)) : Line := parts.flatMap fun p => p.1 ++ p.2

end Sys2Proof
end

