-- ==== Sys2Proof/Certificates/Slice0/Obligations.lean ====
section
/-!
DEFINITION. The statements for the provers. Each says which rule of spec/ it formalises, or that it rests on a choice of
the model. The words they share stand first, under Sys2Proof.Statements.
-/

open Sys2Proof Sys2Proof.Machine

namespace Sys2Proof.Statements

/-- `s` after an evaluation that ended with `r` and made the host write the lines `out`; every other field as it was. -/
def after (s : State) (r : Result) (out : List Text) : State :=
  { s with results := s.results ++ [r], outputStream := s.outputStream ++ out }

/-- The lines the host writes for a result: the rendered word of an `OK`, nothing for `BLANK` and `ERR`
(60_exceptions.md R102). -/
def written : Result → List Text
  | .ok w _ => [render w]
  | _ => []

/-- A step from any state of a run under `hex` whose next line is `line` gives the result `r`: the line is taken, the
result recorded, and nothing else changes. -/
def Gives (hex : Bool) (line : Line) (r : Result) : Prop :=
  ∀ (s : State) (rest : List Line), s.uniformImmHex = hex → s.pending = line :: rest →
    step s = .next (after { s with pending := rest } r (written r))

/-- A digit string of a base, most significant digit first, one digit at least, and its value. -/
def DigitString (base : Nat) (digit : Char → Nat → Prop) (ds : Text) (n : Nat) : Prop :=
  ∃ vs : List Nat, vs ≠ [] ∧ List.Forall₂ digit ds vs ∧ n = vs.foldl (fun a d => base * a + d) 0

/-- `c` is the ASCII decimal digit of value `d`. -/
def IsDecDigit (c : Char) (d : Nat) : Prop := "0123456789".toList[d]? = some c

/-- `c` is a hexadecimal digit of value `d`, in either case. -/
def IsHexDigit (c : Char) (d : Nat) : Prop :=
  "0123456789abcdef".toList[d]? = some c ∨ "0123456789ABCDEF".toList[d]? = some c

/-- `[+-]?[0-9]+` and its value (30_encoding.md R54). -/
def DecimalNumeral (t : Text) (v : Int) : Prop :=
  ∃ ds n, DigitString 10 IsDecDigit ds n ∧
    ((t = ds ∧ v = n) ∨ (t = '+' :: ds ∧ v = n) ∨ (t = '-' :: ds ∧ v = -(n : Int)))

/-- `0x[0-9a-fA-F]+` and its value (30_encoding.md R55). -/
def HexNumeral (t : Text) (v : Int) : Prop :=
  ∃ ds n, t = '0' :: 'x' :: ds ∧ DigitString 16 IsHexDigit ds n ∧ v = n

/-- An immediate of a format and its value, as `iimm` and `uimm` of 30_encoding.md R69. -/
def ImmediateNumeral (hex : Bool) (fmt : Format) (t : Text) (v : Int) : Prop :=
  DecimalNumeral t v ∨ ((fmt = .U ∨ hex = true) ∧ HexNumeral t v)

/-- What the rule of an R-type mnemonic says of its instruction (40_r_type.md R70 and R71-R80). -/
def RTypeRule (mk : List Token → Instr) (funct7 : BitVec 7) (funct3 : BitVec 3) : Prop :=
  ∀ s : State,
    (∀ rd rs1 rs2 : Reg,
      let w : Word := funct7 ++ rs2 ++ rs1 ++ funct3 ++ rd ++ 0b0110011#7
      exec (mk [regName rd.toNat, regName rs1.toNat, regName rs2.toNat]) s
          = .next (after s (.ok w false) [render w]) ∧
        w &&& 0xFE00707F#32 = (funct7.setWidth 32 <<< 25) ||| (funct3.setWidth 32 <<< 12) ||| 0x33#32) ∧
    (∀ ops, ops.length ≠ 3 → exec (mk ops) s = .next (after s (.err .operandCountMismatch 0) [])) ∧
    (∀ t1 t2 t3, t1 ∉ regNames →
      exec (mk [t1, t2, t3]) s = .next (after s (.err .invalidRegister 1) [])) ∧
    (∀ t1 t2 t3, t1 ∈ regNames → t2 ∉ regNames →
      exec (mk [t1, t2, t3]) s = .next (after s (.err .invalidRegister 2) [])) ∧
    (∀ t1 t2 t3, t1 ∈ regNames → t2 ∈ regNames → t3 ∉ regNames →
      exec (mk [t1, t2, t3]) s = .next (after s (.err .invalidRegister 3) []))

/-- What the rule of an I-type mnemonic says of its instruction (41_i_type.md R81 and R82-R90). -/
def ITypeRule (mk : List Token → Instr) (funct3 : BitVec 3) : Prop :=
  ∀ s : State,
    (∀ (rd rs1 : Reg) (t : Token) (v : Int), ImmediateNumeral s.uniformImmHex .I t v →
      let w : Word := BitVec.ofInt 12 v ++ rs1 ++ funct3 ++ rd ++ 0b0010011#7
      exec (mk [regName rd.toNat, regName rs1.toNat, t]) s
          = .next (after s (.ok w (decide (v < -2048 ∨ 4095 < v))) [render w]) ∧
        w &&& 0x0000707F#32 = (funct3.setWidth 32 <<< 12) ||| 0x13#32) ∧
    (∀ ops, ops.length ≠ 3 → exec (mk ops) s = .next (after s (.err .operandCountMismatch 0) [])) ∧
    (∀ t1 t2 t3, t1 ∉ regNames →
      exec (mk [t1, t2, t3]) s = .next (after s (.err .invalidRegister 1) [])) ∧
    (∀ t1 t2 t3, t1 ∈ regNames → t2 ∉ regNames →
      exec (mk [t1, t2, t3]) s = .next (after s (.err .invalidRegister 2) [])) ∧
    (∀ t1 t2 t3, t1 ∈ regNames → t2 ∈ regNames → (∀ v, ¬ ImmediateNumeral s.uniformImmHex .I t3 v) →
      exec (mk [t1, t2, t3]) s = .next (after s (.err .malformedImmediate 3) []))

/-- What the rule of a U-type mnemonic says of its instruction (42_u_type.md R91 and R92-R93). -/
def UTypeRule (mk : List Token → Instr) (opcode : BitVec 7) : Prop :=
  ∀ s : State,
    (∀ (rd : Reg) (t : Token) (v : Int), ImmediateNumeral s.uniformImmHex .U t v →
      let w : Word := BitVec.ofInt 20 v ++ rd ++ opcode
      exec (mk [regName rd.toNat, t]) s
          = .next (after s (.ok w (decide (v < -524288 ∨ 1048575 < v))) [render w]) ∧
        w &&& 0x0000007F#32 = opcode.setWidth 32) ∧
    (∀ ops, ops.length ≠ 2 → exec (mk ops) s = .next (after s (.err .operandCountMismatch 0) [])) ∧
    (∀ t1 t2, t1 ∉ regNames → exec (mk [t1, t2]) s = .next (after s (.err .invalidRegister 1) [])) ∧
    (∀ t1 t2, t1 ∈ regNames → (∀ v, ¬ ImmediateNumeral s.uniformImmHex .U t2 v) →
      exec (mk [t1, t2]) s = .next (after s (.err .malformedImmediate 2) []))

/-- The first `n` operand tokens are register names. -/
def RegistersUpTo (n : Nat) (ops : List Token) : Prop := ∀ t ∈ ops.take n, t ∈ regNames

/-- How many of a format's operand positions, from position 1 on, are registers (30_encoding.md R50). -/
def registerCount : Format → Nat
  | .R => 3
  | .I => 2
  | .U => 1

/-- The tokens 30_encoding.md R53 names that are no register names. -/
def otherRegisterSpellings : List Token :=
  ["x32", "x100", "zero", "ra", "sp", "X5", "x05", "x00", "x+1", "x-0", "x", "5", "x1."].map String.toList

/-- The spellings 30_encoding.md R67, 20_memory.md R34 and 60_exceptions.md R106 name that are no keys of the table. -/
def otherMnemonicSpellings : List Token :=
  ["lw", "lb", "lbu", "lh", "lhu", "sw", "sb", "sh", "beq", "bne", "blt", "bge", "bltu", "bgeu", "jal", "jalr",
    "ecall", "ebreak", "mret", "sret", "wfi", "csrrw", "csrrs", "fence", "fence.i", "lr.w", "sc.w", "amoadd.w",
    "mul", "div", "slt", "sltu", "ADD", "Add", "add.w", "nop", "li", "mv", "not", "neg", "j", "ret", "la", ".text",
    "loop:"].map String.toList

end Sys2Proof.Statements

open Sys2Proof.Statements

/-! ## The mnemonics -/

/-- Every R-type mnemonic, with the fields of its rule: the word and the false overflow for any three registers, and the
three errors in their order (40_r_type.md R70-R80). `slt` and `sltu` are not in the table (R79, R80). -/
def Obligations.RTypeMnemonicsEncodeOrReject : Prop :=
  RTypeRule Instr.add 0b0000000 0b000 ∧ RTypeRule Instr.sub 0b0100000 0b000 ∧
  RTypeRule Instr.and 0b0000000 0b111 ∧ RTypeRule Instr.or 0b0000000 0b110 ∧
  RTypeRule Instr.xor 0b0000000 0b100 ∧ RTypeRule Instr.sll 0b0000000 0b001 ∧
  RTypeRule Instr.srl 0b0000000 0b101 ∧ RTypeRule Instr.sra 0b0100000 0b101 ∧
  RTypeRule Instr.stl 0b0000000 0b010 ∧ RTypeRule Instr.stlu 0b0000000 0b011 ∧
  lookup "slt".toList = none ∧ lookup "sltu".toList = none

/-- Every I-type mnemonic, with the funct3 of its rule (41_i_type.md R81-R90): `srai` has no funct7. -/
def Obligations.ITypeMnemonicsEncodeOrReject : Prop :=
  ITypeRule Instr.addi 0b000 ∧ ITypeRule Instr.andi 0b111 ∧ ITypeRule Instr.ori 0b110 ∧
  ITypeRule Instr.xori 0b100 ∧ ITypeRule Instr.slti 0b010 ∧ ITypeRule Instr.sltiu 0b011 ∧
  ITypeRule Instr.slli 0b001 ∧ ITypeRule Instr.srli 0b101 ∧ ITypeRule Instr.srai 0b101

/-- Both U-type mnemonics, with the opcode of their rules (42_u_type.md R91-R93). -/
def Obligations.UTypeMnemonicsEncodeOrReject : Prop :=
  UTypeRule Instr.lui 0b0110111 ∧ UTypeRule Instr.auipc 0b0010111

/-- The word of `srai` has bits 31:25 = 0100000 exactly when the immediate itself carries that pattern (41_i_type.md R90,
90_conflicts.md C1), and `srai` and `srli` then give one word for the same operands. -/
def Obligations.SraiWordIsStandardOnlyByItsImmediate : Prop :=
  ∀ (s : State) (rd rs1 : Reg) (t : Token) (v : Int), ImmediateNumeral s.uniformImmHex .I t v →
    ∃ (w : Word) (o : Bool),
      exec (.srai [regName rd.toNat, regName rs1.toNat, t]) s = .next (after s (.ok w o) [render w]) ∧
      exec (.srli [regName rd.toNat, regName rs1.toNat, t]) s = .next (after s (.ok w o) [render w]) ∧
      (w.extractLsb' 25 7 = 0b0100000#7 ↔ 1024 ≤ v % 4096 ∧ v % 4096 < 1056)

/-! ## Immediates -/

/-- `ParseImm` reads exactly the numerals of the two grammars, with their values (30_encoding.md R54, R55, R56). -/
def Obligations.ParseImmReadsExactlyTheNumerals : Prop :=
  ∀ (hex : Bool) (fmt : Format) (t : Token) (v : Int),
    parseImm hex fmt t = some v ↔ ImmediateNumeral hex fmt t v

/-- No range check: every integer has a numeral in every format, and every string of decimal digits of any length is one
(30_encoding.md R58). -/
def Obligations.NumeralsOfAnyLengthAreRead : Prop :=
  (∀ (hex : Bool) (fmt : Format) (v : Int), ∃ t, parseImm hex fmt t = some v) ∧
  (∀ (hex : Bool) (fmt : Format) (t : Token), t ≠ [] → (∀ c ∈ t, ∃ d, IsDecDigit c d) →
    (parseImm hex fmt t).isSome = true) ∧
  parseImm false .I "99999999999999999999".toList = some 99999999999999999999

/-- The numerals a reader might get wrong are malformed (30_encoding.md R57): a hexadecimal I-type immediate with the
parameter false; and, whatever the parameter, an uppercase prefix, a bare prefix, and a sign before or after the prefix. -/
def Obligations.MisreadHexNumeralsAreMalformed : Prop :=
  ∀ (s : State) (m : Mnemonic) (rd rs1 : Reg) (t : Token),
    ((descriptor m).format = .I → s.uniformImmHex = false → ['0', 'x'] <+: t →
      exec (m.instr [regName rd.toNat, regName rs1.toNat, t]) s
        = .next (after s (.err .malformedImmediate 3) [])) ∧
    ((['0', 'X'] <+: t ∨ t = ['0', 'x'] ∨ ['-', '0', 'x'] <+: t ∨ ['+', '0', 'x'] <+: t ∨
        ['0', 'x', '-'] <+: t ∨ ['0', 'x', '+'] <+: t) →
      ((descriptor m).format = .I →
        exec (m.instr [regName rd.toNat, regName rs1.toNat, t]) s
          = .next (after s (.err .malformedImmediate 3) [])) ∧
      ((descriptor m).format = .U →
        exec (m.instr [regName rd.toNat, t]) s = .next (after s (.err .malformedImmediate 2) [])))

/-- `Mask` is the Euclidean remainder, which is the AND of the two's-complement form with `2^n - 1` at any width that
holds the mask (30_encoding.md R59). -/
def Obligations.MaskIsRemainderAndTwosComplementAnd : Prop :=
  (∀ (n : Nat) (v : Int), ((mask n v).toNat : Int) = v % (2 : Int) ^ n) ∧
  (∀ (n m : Nat) (v : Int), n ≤ m →
    BitVec.ofInt m v &&& BitVec.ofNat m (2 ^ n - 1) = (mask n v).setWidth m) ∧
  mask 12 (-1) = 0xFFF ∧ mask 12 4096 = 0x000 ∧ mask 12 (-2049) = 0x7FF ∧ mask 20 0x123456 = 0x23456

/-- `Ovf` is true exactly when the masked bits give the value back under neither the signed nor the unsigned reading, and
the two ranges of 30_encoding.md R60. -/
def Obligations.OverflowMeansNotReadBack : Prop :=
  (∀ (n : Nat) (v : Int), 0 < n →
    (ovf n v = false ↔ (mask n v).toInt = v ∨ ((mask n v).toNat : Int) = v)) ∧
  (∀ v : Int, ovf 12 v = false ↔ -2048 ≤ v ∧ v ≤ 4095) ∧
  (∀ v : Int, ovf 20 v = false ↔ -524288 ≤ v ∧ v ≤ 1048575)

/-- Overflow never replaces a result (60_exceptions.md R100): a well-formed instruction gives an OK result, with the same
word as the instruction whose immediate is already masked, which overflows never. -/
def Obligations.OverflowNeverReplacesTheWord : Prop :=
  ∀ (s : State) (i : Instr), i.wellFormed s.uniformImmHex = true →
    ∃ (w : Word) (o : Bool), exec i s = .next (after s (.ok w o) [render w]) ∧
      exec (i.respell s.uniformImmHex) s = .next (after s (.ok w false) [render w])

/-! ## Registers -/

/-- The register decoder accepts exactly the 32 names `x0`..`x31`, one-to-one with the indices (10_state.md R17), and so
rejects the spellings 30_encoding.md R53 lists. -/
def Obligations.RegDecodeAcceptsExactly32Names : Prop :=
  regNames = ["x0", "x1", "x2", "x3", "x4", "x5", "x6", "x7", "x8", "x9", "x10", "x11", "x12", "x13", "x14", "x15",
    "x16", "x17", "x18", "x19", "x20", "x21", "x22", "x23", "x24", "x25", "x26", "x27", "x28", "x29", "x30",
    "x31"].map String.toList ∧
  (∀ (t : Token) (r : Reg), regDecode t = some r ↔ regNames[r.toNat]? = some t) ∧
  (∀ t : Token, regDecode t = none ↔ t ∉ regNames) ∧
  (∀ t ∈ otherRegisterSpellings, regDecode t = none)

/-- The register decoder rejects out-of-range indices, ABI names, a wrong prefix, leading zeros, signs and trailing
characters (30_encoding.md R53), at every register position of every mnemonic of every format: with the right operand
count and register names in front, such a token gives `InvalidRegister` at its position, whatever operands follow. -/
def Obligations.OtherRegisterSpellingsAreInvalid : Prop :=
  ∀ (s : State) (m : Mnemonic) (front behind : List Token) (t : Token) (pos : Pos), t ∈ otherRegisterSpellings →
    (∀ u ∈ front, u ∈ regNames) → pos.val = front.length + 1 → pos.val ≤ registerCount (descriptor m).format →
    front.length + 1 + behind.length = (descriptor m).format.operandCount →
    exec (m.instr (front ++ t :: behind)) s = .next (after s (.err .invalidRegister pos) [])

/-! ## The front end -/

/-- `WS` is exactly six characters (30_encoding.md R41), and `SEP` adds the comma (R40). -/
def Obligations.SeparatorsAreTheSevenCharacters : Prop :=
  ∀ c : Char,
    (isWhitespace c = true ↔
      c.toNat = 0x20 ∨ c.toNat = 0x09 ∨ c.toNat = 0x0A ∨ c.toNat = 0x0B ∨ c.toNat = 0x0C ∨ c.toNat = 0x0D) ∧
    (isSeparator c = true ↔ isWhitespace c = true ∨ c = ',')

/-- `Tokens(line)` is the list of the maximal non-empty runs of characters that are no separators, in order
(30_encoding.md R42): these equations determine it. -/
def Obligations.TokensAreTheMaximalRuns : Prop :=
  tokens [] = [] ∧
  (∀ (c : Char) (l : Line), isSeparator c = true → tokens (c :: l) = tokens l) ∧
  (∀ t : Token, t ≠ [] → (∀ c ∈ t, isSeparator c = false) →
    tokens t = [t] ∧ ∀ (c : Char) (l : Line), isSeparator c = true → tokens (t ++ c :: l) = t :: tokens l) ∧
  (∀ (l : Line) (t : Token), t ∈ tokens l → t ≠ [] ∧ ∀ c ∈ t, isSeparator c = false)

/-- Leading, trailing and repeated separators give no empty tokens and change no token (30_encoding.md R45): a line of
tokens, each behind separators (at least one behind every token but the first), gives those tokens, and trimming a line
changes no token. -/
def Obligations.SpacingDoesNotMatter : Prop :=
  (∀ (first : Text × Token) (more : List (Text × Token)) (post : Text),
    (∀ p ∈ first :: more, Separators p.1 ∧ p.2 ≠ [] ∧ ∀ c ∈ p.2, isSeparator c = false) →
    (∀ p ∈ more, p.1 ≠ []) → Separators post →
    tokens (spaced (first :: more) ++ post) = (first :: more).map Prod.snd) ∧
  (∀ (pre post : Text) (l : Line), Separators pre → Separators post → tokens (pre ++ l ++ post) = tokens l)

/-- A line with no tokens, and only such a line, gives BLANK: no word, no error, no output line; and the lines with no
tokens are those made of separators only (30_encoding.md R44). -/
def Obligations.BlankExactlyForLinesOfSeparators : Prop :=
  ∀ (hex : Bool) (line : Line),
    (Gives hex line .blank ↔ tokens line = []) ∧ (tokens line = [] ↔ Separators line)

/-- `Lookup` finds the entry whose key equals the token exactly, and the 21 keys are distinct (30_encoding.md R46). -/
def Obligations.LookupIsExactMatch : Prop :=
  (∀ (t : Token) (m : Mnemonic), lookup t = some m ↔ t = m.key) ∧
  (∀ t : Token, lookup t = none ↔ t ∉ Mnemonic.all.map Mnemonic.key) ∧
  Mnemonic.all.length = 21 ∧ (Mnemonic.all.map Mnemonic.key).Nodup ∧ ∀ m : Mnemonic, m ∈ Mnemonic.all

/-- The contents of the instruction table (30_encoding.md R47). -/
def Obligations.InstructionTableContents : Prop :=
  (Mnemonic.all.map fun m => (String.ofList m.key, (descriptor m).format, (descriptor m).opcode,
      (descriptor m).funct3, (descriptor m).funct7)) =
    [("add", .R, 0b0110011, some 0b000, some 0b0000000), ("sub", .R, 0b0110011, some 0b000, some 0b0100000),
     ("and", .R, 0b0110011, some 0b111, some 0b0000000), ("or", .R, 0b0110011, some 0b110, some 0b0000000),
     ("xor", .R, 0b0110011, some 0b100, some 0b0000000), ("sll", .R, 0b0110011, some 0b001, some 0b0000000),
     ("srl", .R, 0b0110011, some 0b101, some 0b0000000), ("sra", .R, 0b0110011, some 0b101, some 0b0100000),
     ("stl", .R, 0b0110011, some 0b010, some 0b0000000), ("stlu", .R, 0b0110011, some 0b011, some 0b0000000)] ++
    [("addi", .I, 0b0010011, some 0b000, none), ("andi", .I, 0b0010011, some 0b111, none),
     ("ori", .I, 0b0010011, some 0b110, none), ("xori", .I, 0b0010011, some 0b100, none),
     ("slti", .I, 0b0010011, some 0b010, none), ("sltiu", .I, 0b0010011, some 0b011, none),
     ("slli", .I, 0b0010011, some 0b001, none), ("srli", .I, 0b0010011, some 0b101, none),
     ("srai", .I, 0b0010011, some 0b101, none)] ++
    [("lui", .U, 0b0110111, none, none), ("auipc", .U, 0b0010111, none, none)]

/-- The format tag and the presence of funct3 and funct7 agree in every row (30_encoding.md R48). -/
def Obligations.FieldPresenceAgreesWithFormat : Prop :=
  ∀ m : Mnemonic,
    ((descriptor m).funct7.isSome = true ↔ (descriptor m).format = .R) ∧
    ((descriptor m).funct3.isSome = true ∧ (descriptor m).funct7 = none ↔ (descriptor m).format = .I) ∧
    ((descriptor m).funct3 = none ∧ (descriptor m).funct7 = none ↔ (descriptor m).format = .U)

/-- `UnknownMnemonic`, at position 0, exactly when the first token is no key of the table, whatever operands follow
(60_exceptions.md R95, 30_encoding.md R49). -/
def Obligations.UnknownMnemonicExactlyOutsideTheTable : Prop :=
  ∀ (hex : Bool) (line : Line) (pos : Pos),
    Gives hex line (.err .unknownMnemonic pos) ↔
      pos = 0 ∧ ∃ m ops, tokens line = m :: ops ∧ ∀ k : Mnemonic, m ≠ k.key

/-- Spellings of real RISC-V instructions and conventions that are not in the table (30_encoding.md R67, 20_memory.md R34,
60_exceptions.md R106): a line whose first token is such a spelling is an unknown mnemonic, whatever stands around it; and
so is the bare spelling as a line. -/
def Obligations.ListedOtherSpellingsAreUnknown : Prop :=
  ∀ (hex : Bool) (t : Token), t ∈ otherMnemonicSpellings →
    (∀ (line : Line) (ops : List Token), tokens line = t :: ops → Gives hex line (.err .unknownMnemonic 0)) ∧
    Gives hex t (.err .unknownMnemonic 0)

/-! ## Errors and their priority -/

/-- `OperandCountMismatch`, at position 0, exactly when the mnemonic is known and the count is not 3 for R and I, or not 2
for U, whatever the operands are (60_exceptions.md R98, 30_encoding.md R51). -/
def Obligations.CountMismatchExactlyForWrongCounts : Prop :=
  ∀ (hex : Bool) (line : Line) (pos : Pos),
    Gives hex line (.err .operandCountMismatch pos) ↔
      pos = 0 ∧ ∃ (k : Mnemonic) (ops : List Token), tokens line = k.key :: ops ∧
        ops.length ≠ (match (descriptor k).format with | .R => 3 | .I => 3 | .U => 2)

/-- `InvalidRegister` exactly when a register operand is no register name, at the position of the first such operand
(60_exceptions.md R96). -/
def Obligations.InvalidRegisterAtFirstBadRegister : Prop :=
  ∀ (hex : Bool) (line : Line) (pos : Pos),
    Gives hex line (.err .invalidRegister pos) ↔
      ∃ (k : Mnemonic) (ops : List Token) (t : Token), tokens line = k.key :: ops ∧
        ops.length = (descriptor k).format.operandCount ∧
        1 ≤ pos.val ∧ pos.val ≤ registerCount (descriptor k).format ∧
        ops[pos.val - 1]? = some t ∧ t ∉ regNames ∧ RegistersUpTo (pos.val - 1) ops

/-- `MalformedImmediate` exactly when the registers are good and the immediate token is no numeral of its format, at
position 3 for I-type and 2 for U-type (60_exceptions.md R97). -/
def Obligations.MalformedImmediateAtTheImmediate : Prop :=
  ∀ (hex : Bool) (line : Line) (pos : Pos),
    Gives hex line (.err .malformedImmediate pos) ↔
      ∃ (k : Mnemonic) (t1 t2 t3 : Token), t1 ∈ regNames ∧
        ((tokens line = [k.key, t1, t2, t3] ∧ (descriptor k).format = .I ∧ pos = 3 ∧ t2 ∈ regNames ∧
            ∀ v, ¬ ImmediateNumeral hex .I t3 v) ∨
         (tokens line = [k.key, t1, t2] ∧ (descriptor k).format = .U ∧ pos = 2 ∧
            ∀ v, ¬ ImmediateNumeral hex .U t2 v))

/-- The order in which faults are reported (60_exceptions.md R99): whichever operands are bad, the first of no tokens,
unknown mnemonic, operand count, operand 1, operand 2, operand 3. -/
def Obligations.FirstFaultInOrderIsReported : Prop :=
  ∀ (hex : Bool) (line : Line),
    (tokens line = [] → Gives hex line .blank) ∧
    (∀ m ops, tokens line = m :: ops → m ∉ Mnemonic.all.map Mnemonic.key →
      Gives hex line (.err .unknownMnemonic 0)) ∧
    (∀ (k : Mnemonic) (ops : List Token), tokens line = k.key :: ops →
      (ops.length ≠ (descriptor k).format.operandCount → Gives hex line (.err .operandCountMismatch 0)) ∧
      (∀ t1 t2, ops = [t1, t2] → (descriptor k).format = .U →
        (t1 ∉ regNames → Gives hex line (.err .invalidRegister 1)) ∧
        (t1 ∈ regNames → isImmediate hex .U t2 = false → Gives hex line (.err .malformedImmediate 2))) ∧
      (∀ t1 t2 t3, ops = [t1, t2, t3] → (descriptor k).format ≠ .U →
        (t1 ∉ regNames → Gives hex line (.err .invalidRegister 1)) ∧
        (t1 ∈ regNames → t2 ∉ regNames → Gives hex line (.err .invalidRegister 2)) ∧
        (t1 ∈ regNames → t2 ∈ regNames → (descriptor k).format = .R → t3 ∉ regNames →
          Gives hex line (.err .invalidRegister 3)) ∧
        (t1 ∈ regNames → t2 ∈ regNames → (descriptor k).format = .I → isImmediate hex .I t3 = false →
          Gives hex line (.err .malformedImmediate 3))))

/-- Raising an error ends the evaluation and nothing else happens (60_exceptions.md R101): no word, no output line, no
state saved or changed, and the next line gets the result it would have had without it. -/
def Obligations.ErrorChangesNothingElse : Prop :=
  ∀ (s t : State) (kind : ErrKind) (pos : Pos), s.pending ≠ [] → step s = .next t →
    t.results = s.results ++ [.err kind pos] →
    t.uniformImmHex = s.uniformImmHex ∧ t.pending = s.pending.tail ∧ t.outputStream = s.outputStream ∧
    ∀ u, step { s with pending := s.pending.tail } = .next u →
      ∃ rs, u.results = s.results ++ rs ∧
        step t = .next { u with results := s.results ++ [.err kind pos] ++ rs }

/-- Rejected and blank lines change nothing in the output (60_exceptions.md R102, R104): a run over all lines and a run
over the lines that encode write the same output stream, and both end. -/
def Obligations.RejectedLinesLeaveTheOutputAlone : Prop :=
  ∀ (hex : Bool) (lines : List Line),
    let kept := lines.filter fun line => match encodeLine hex line with | .ok _ _ => true | _ => false
    ∃ t u : State,
      Host.Core.run Sys2Proof.core lines.length (State.start hex lines) = .next t ∧
      Host.Core.run Sys2Proof.core kept.length (State.start hex kept) = .next u ∧
      t.pending = [] ∧ u.pending = [] ∧ t.outputStream = u.outputStream

/-- The four error kinds' codes, and the codes that are never driven (60_exceptions.md R94). -/
def Obligations.ErrorCodes : Prop :=
  errCode .unknownMnemonic = 0b001 ∧ errCode .invalidRegister = 0b010 ∧ errCode .malformedImmediate = 0b011 ∧
  errCode .operandCountMismatch = 0b100 ∧
  ∀ c : BitVec 3, (c = 0b000 ∨ c = 0b101 ∨ c = 0b110 ∨ c = 0b111) → ∀ k, errCode k ≠ c

/-! ## Results, ports, words -/

/-- The ports show exactly one result (30_encoding.md R38): a consumer reads a result from ports exactly when they are
driven by it and its position is one its kind is reported at. -/
def Obligations.PortsShowExactlyOneResult : Prop :=
  ∀ (p : PortBits) (r : Result),
    readPorts p = .next r ↔
      drives r p = true ∧ (∀ kind pos, r = .err kind pos → pos ∈ kind.positions)

/-- A consumer that meets a code that is never driven faults (93_implementation_defined.md A10), and no result a step
records ever drives one. -/
def Obligations.UndrivenCodesFaultAndNeverAppear : Prop :=
  (∀ p : PortBits, (p.resKind = 0b11 ∨
      (p.resKind = 0b10 ∧ (p.errCode = 0b000 ∨ p.errCode = 0b101 ∨ p.errCode = 0b110 ∨ p.errCode = 0b111))) →
    readPorts p = .fault .undrivenPortCode) ∧
  (∀ (s t : State) (r : Result) (p : PortBits), step s = .next t → t.results = s.results ++ [r] →
    drives r p = true → readPorts p = .next r)

/-- A result that is not OK has no word to read (30_encoding.md R38, 93_implementation_defined.md A9). -/
def Obligations.NoWordWithoutOk : Prop :=
  ∀ r : Result, (∃ w, wordOf r = .next w) ↔ ∃ w o, r = .ok w o

/-- Where the operands of an OK result stand in its word (30_encoding.md R61, R62, R63): the registers, and the immediate
masked and unshifted, at the bit positions of the layouts, beside the descriptor's fields. -/
def Obligations.OperandsStandWhereTheLayoutsSay : Prop :=
  ∀ (hex : Bool) (i : Instr) (w : Word) (o : Bool), i.result hex = .ok w o →
    w.extractLsb' 0 7 = (descriptor i.mnemonic).opcode ∧
    match (descriptor i.mnemonic).format with
    | .R => i.ops = [regName (w.extractLsb' 7 5).toNat, regName (w.extractLsb' 15 5).toNat,
          regName (w.extractLsb' 20 5).toNat] ∧
        (descriptor i.mnemonic).funct3 = some (w.extractLsb' 12 3) ∧
        (descriptor i.mnemonic).funct7 = some (w.extractLsb' 25 7)
    | .I => ∃ t v, i.ops = [regName (w.extractLsb' 7 5).toNat, regName (w.extractLsb' 15 5).toNat, t] ∧
        (descriptor i.mnemonic).funct3 = some (w.extractLsb' 12 3) ∧
        ImmediateNumeral hex .I t v ∧ w.extractLsb' 20 12 = BitVec.ofInt 12 v
    | .U => ∃ t v, i.ops = [regName (w.extractLsb' 7 5).toNat, t] ∧
        ImmediateNumeral hex .U t v ∧ w.extractLsb' 12 20 = BitVec.ofInt 20 v

/-- `Render(w)` has 32 characters, the most significant bit first, and determines the word (30_encoding.md R65). -/
def Obligations.RenderIsTheBitsMostSignificantFirst : Prop :=
  ∀ w : Word, (render w).length = 32 ∧
    (∀ k, k < 32 → (render w)[k]? = some (if w.getLsbD (31 - k) then '1' else '0')) ∧
    ∀ w' : Word, render w = render w' → w = w'

/-- The bytes of a stored word under either order (20_memory.md R29): the little-endian bytes give the word back, and the
big-endian bytes are their reverse. The order a consumer takes is OPEN: this holds for both. -/
def Obligations.StoredBytesGiveTheWordBack : Prop :=
  ∀ w : Word,
    (∃ b0 b1 b2 b3, wordBytes .littleEndian w = [b0, b1, b2, b3] ∧ (b3 ++ b2 ++ b1 ++ b0 : BitVec 32) = w) ∧
    wordBytes .bigEndian w = (wordBytes .littleEndian w).reverse

/-! ## Encode, decode -/

/-- Reading back the word of a well-formed instruction gives the instruction as the reader spells it: the same operands,
and the same mnemonic but for `srai`, whose words are `srli`'s (30_encoding.md R66). The spelling is the model's choice
(log entry 5). -/
def Obligations.DecodeOfEncodeIsTheInstruction : Prop :=
  ∀ (hex : Bool) (i : Instr), i.wellFormed hex = true →
    ∃ w, encode hex i = some w ∧ decodeWord w = some (i.respell hex)

/-- With every operand at every value the encoding admits, decode of encode is the instruction itself, for every mnemonic
but `srai`. -/
def Obligations.DecodeOfEncodeIsIdentity : Prop :=
  ∀ (hex : Bool) (m : Mnemonic), m ≠ .srai →
    match (descriptor m).format with
    | .R => ∀ rd rs1 rs2 : Reg,
        (encode hex (m.instr [regName rd.toNat, regName rs1.toNat, regName rs2.toNat])).bind decodeWord
          = some (m.instr [regName rd.toNat, regName rs1.toNat, regName rs2.toNat])
    | .I => ∀ (rd rs1 : Reg) (imm : BitVec 12),
        (encode hex (m.instr [regName rd.toNat, regName rs1.toNat, dec imm.toNat])).bind decodeWord
          = some (m.instr [regName rd.toNat, regName rs1.toNat, dec imm.toNat])
    | .U => ∀ (rd : Reg) (imm : BitVec 20),
        (encode hex (m.instr [regName rd.toNat, dec imm.toNat])).bind decodeWord
          = some (m.instr [regName rd.toNat, dec imm.toNat])

/-- The other direction: what the reader reads from a word is well-formed and encodes to that word, under either value of
the parameter. -/
def Obligations.EncodeOfDecodeIsTheWord : Prop :=
  ∀ (w : Word) (i : Instr), decodeWord w = some i →
    ∀ hex, i.wellFormed hex = true ∧ encode hex i = some w

/-- Two instructions share a word only when they are the same instruction up to the spelling of the immediate, or an
`srli` and an `srai` of the same operands (30_encoding.md R66). -/
def Obligations.OnlySrliAndSraiShareWords : Prop :=
  ∀ (hex hex' : Bool) (i j : Instr) (w : Word), encode hex i = some w → encode hex' j = some w →
    i.respell hex = j.respell hex' ∧
    (i.mnemonic = j.mnemonic ∨ (i.mnemonic = .srli ∧ j.mnemonic = .srai) ∨ (i.mnemonic = .srai ∧ j.mnemonic = .srli))

/-- A step on the line of the instruction read from a word gives that word, without overflow: tokenizing, looking up,
decoding the operands, masking and inserting undo the reading (log entry 5 for the line's spelling). -/
def Obligations.StepOnTheLineOfAWordGivesTheWord : Prop :=
  ∀ (hex : Bool) (w : Word) (i : Instr), decodeWord w = some i → Gives hex i.line (.ok w false)

/-- Words written out bit by bit from the layouts and the table, one of each family and format, and words outside the
table. -/
def Obligations.WordsWrittenOutDecode : Prop :=
  decodeTableWord 32 0b0000000_00011_00010_000_00001_0110011
    = some (.add ["x1".toList, "x2".toList, "x3".toList]) ∧
  decodeTableWord 32 0b0100000_00111_00110_101_00101_0110011
    = some (.sra ["x5".toList, "x6".toList, "x7".toList]) ∧
  decodeTableWord 32 0b111111111111_00110_000_00101_0010011
    = some (.addi ["x5".toList, "x6".toList, "4095".toList]) ∧
  decodeTableWord 32 0b010000000011_00110_101_00101_0010011
    = some (.srli ["x5".toList, "x6".toList, "1027".toList]) ∧
  decodeTableWord 32 0b00000000000000000001_00101_0110111 = some (.lui ["x5".toList, "1".toList]) ∧
  decodeTableWord 32 0b00000000000001100100_00001_0010111 = some (.auipc ["x1".toList, "100".toList]) ∧
  decodeTableWord 32 0b0000001_00011_00010_000_00001_0110011 = none ∧ decodeTableWord 32 0 = none

/-! ## The machine -/

/-- A step runs the decoded instruction: the line is taken, and the rest is `exec`. A line without an instruction gives
its result as R44 and R49 say. -/
def Obligations.StepRunsTheDecodedInstruction : Prop :=
  ∀ (s : State) (line : Line) (rest : List Line), s.pending = line :: rest →
    (∀ i, decodeLine line = .instr i → step s = exec i { s with pending := rest }) ∧
    (decodeLine line = .blank → step s = .next (after { s with pending := rest } .blank [])) ∧
    (decodeLine line = .unknown → step s = .next (after { s with pending := rest } (.err .unknownMnemonic 0) []))

/-- The instruction read from a table word is the one a step runs next after `withFetchWord` (log entries 3 and 5). -/
def Obligations.FetchedWordRunsItsInstruction : Prop :=
  ∀ (s : State) (nbits w : Nat) (i : Instr), decodeTableWord nbits w = some i →
    step (s.withFetchWord nbits w) = exec i s

/-- With no line left a step changes nothing. The model's choice (log entry 6). -/
def Obligations.StepWithNoLineIsIdle : Prop :=
  ∀ s : State, s.pending = [] → step s = .next s

/-- The machine's step evaluates the pure function `Encode` of 30_encoding.md R39 on the line it takes. -/
def Obligations.StepEvaluatesEncode : Prop :=
  ∀ (hex : Bool) (line : Line), Gives hex line (encodeLine hex line)

/-- The meanings, written from the mnemonics' own rules (R71-R93), agree with the instruction table and the multiplexer
(30_encoding.md R39, R47) for every instruction, whatever its operand tokens are. -/
def Obligations.MeaningsAgreeWithTheTable : Prop :=
  ∀ (i : Instr) (s : State),
    exec i s = .next (after s (i.result s.uniformImmHex) (written (i.result s.uniformImmHex)))

/-- The frame of every instruction: the parameter, the pending lines, and every earlier result and output line are
unchanged; one result is added, and an output line only for an OK result. -/
def Obligations.EveryInstructionsFrame : Prop :=
  ∀ (i : Instr) (s t : State), exec i s = .next t →
    t.uniformImmHex = s.uniformImmHex ∧ t.pending = s.pending ∧
    ∃ r, r ≠ .blank ∧ t.results = s.results ++ [r] ∧ t.outputStream = s.outputStream ++ written r

/-- Every step answers a next state, and a step that takes a line gives exactly one result (60_exceptions.md R109,
20_memory.md R30): no fault, no refusal, no stuck state. -/
def Obligations.EveryStepAnswersWithOneResult : Prop :=
  (∀ s : State, SafeStep s) ∧
  (∀ (s : State) (line : Line) (rest : List Line), s.pending = line :: rest →
    ∃ r, step s = .next (after { s with pending := rest } r (written r)))

/-- Which result a line gets depends only on the line and the parameter (60_exceptions.md R110): two states that agree in
these get the same result, whatever was evaluated before and whatever follows. -/
def Obligations.ResultDependsOnlyOnLineAndParameter : Prop :=
  ∀ (s1 s2 : State) (line : Line) (rest1 rest2 : List Line),
    s1.uniformImmHex = s2.uniformImmHex → s1.pending = line :: rest1 → s2.pending = line :: rest2 →
    ∃ r, step s1 = .next (after { s1 with pending := rest1 } r (written r)) ∧
      step s2 = .next (after { s2 with pending := rest2 } r (written r))

/-- The parameter stays the same for every line of a run (10_state.md R18, 70_reset_and_hazards.md R113). -/
def Obligations.ParameterNeverChanges : Prop :=
  ∀ (n : Nat) (s t : State), Host.Core.run Sys2Proof.core n s = .next t → t.uniformImmHex = s.uniformImmHex

/-- The parameter matters for one thing only (30_encoding.md R56): a line whose results differ is an I-type line with a
`0x` immediate, which is malformed under `false`. -/
def Obligations.ParameterMattersOnlyForHexITypeImmediates : Prop :=
  ∀ line : Line, encodeLine true line ≠ encodeLine false line →
    encodeLine false line = .err .malformedImmediate 3 ∧
    ∃ (k : Mnemonic) (t1 t2 t3 : Token), tokens line = [k.key, t1, t2, t3] ∧ (descriptor k).format = .I ∧
      ['0', 'x'] <+: t3

/-- The state after reset: the parameter at its default (10_state.md R25), and, the model's choice (log entry 3), no line
and nothing shown. -/
def Obligations.ResetLeaves : Prop :=
  State.reset.uniformImmHex = false ∧ State.reset.pending = [] ∧ State.reset.results = [] ∧
  State.reset.outputStream = []

/-- A reset has no effect on any result (70_reset_and_hazards.md R111): the first line after a reset gets the result the
same line gets at any other time under the parameter the block was built with. -/
def Obligations.ResetHasNoEffectOnResults : Prop :=
  ∀ (s : State) (line : Line) (rest : List Line), s.pending = line :: rest →
    ∃ r, step s = .next (after { s with pending := rest } r (written r)) ∧
      step (State.start s.uniformImmHex (line :: rest))
        = .next { uniformImmHex := s.uniformImmHex, pending := rest, results := [r], outputStream := written r }

/-- A run shows the result list and the output stream of its lines, in input order (70_reset_and_hazards.md R119,
20_memory.md R32). -/
def Obligations.RunShowsResultsInInputOrder : Prop :=
  ∀ s : State,
    Host.Core.run Sys2Proof.core s.pending.length s = .next
      { uniformImmHex := s.uniformImmHex, pending := [],
        results := s.results ++ s.pending.map (encodeLine s.uniformImmHex),
        outputStream := s.outputStream ++
          s.pending.filterMap fun line =>
            match encodeLine s.uniformImmHex line with
            | .ok w _ => some (render w)
            | _ => none }

/-- Every step keeps the invariant of a run: the output stream is what the result list gives, every OK word is of a table
pattern and overflows only with an immediate, every error stands at a position of its kind. -/
def Obligations.EveryStepKeepsTheInvariant : Prop :=
  ∀ s t : State, s.Inv → step s = .next t → t.Inv

/-- The invariant holds after reset. -/
def Obligations.ResetMeetsTheInvariant : Prop := State.reset.Inv

/-- Parallel instances share nothing (20_memory.md R36): whatever order they finish in, re-sequencing their results on the
input line number gives the result list of the run. -/
def Obligations.ResequencingRestoresInputOrder : Prop :=
  ∀ (hex : Bool) (lines : List Line) (done : List (Nat × Result)),
    done.Perm ((numberLines 0 lines).map (evaluateJob hex)) →
    resequence done = lines.map (encodeLine hex)

/-- The input syntax (30_encoding.md R69): a line encodes exactly when it is an instruction of the table, its operands in
the order and of the grammar of its format, with separators in front of every operand and optional separators around. -/
def Obligations.EncodedLinesAreTheSyntax : Prop :=
  ∀ (hex : Bool) (line : Line),
    (∃ w o, Gives hex line (.ok w o)) ↔
      ∃ (pre post : Text) (k : Mnemonic) (parts : List (Text × Token)),
        line = pre ++ k.key ++ spaced parts ++ post ∧ Separators pre ∧ Separators post ∧
        (∀ p ∈ parts, Separators p.1 ∧ p.1 ≠ [] ∧ ∀ c ∈ p.2, isSeparator c = false) ∧
        match (descriptor k).format, parts.map Prod.snd with
        | .R, [t1, t2, t3] => t1 ∈ regNames ∧ t2 ∈ regNames ∧ t3 ∈ regNames
        | .I, [t1, t2, t3] => t1 ∈ regNames ∧ t2 ∈ regNames ∧ ∃ v, ImmediateNumeral hex .I t3 v
        | .U, [t1, t2] => t1 ∈ regNames ∧ ∃ v, ImmediateNumeral hex .U t2 v
        | _, _ => False

/-- A run without errors writes one line of 32 characters for each of its lines that has tokens, overflow or not
(20_memory.md R32, 60_exceptions.md R100, R102). -/
def Obligations.ErrorFreeRunsWriteALinePerLineWithTokens : Prop :=
  ∀ (hex : Bool) (lines : List Line) (t : State),
    Host.Core.run Sys2Proof.core lines.length (State.start hex lines) = .next t → t.ErrorFree →
    t.outputStream.length = (lines.filter fun line => tokens line ≠ []).length ∧
    ∀ out ∈ t.outputStream, out.length = 32
end

