-- ==== Sys2Proof/Laws/Formats.lean ====
section
/-!
SUPPORT. The layouts bit by bit, the fields read back out of a packed word, a word packed from its own fields, and the
rendering character by character.
-/

namespace Sys2Proof.Machine

section fields
variable (funct7 : BitVec 7) (rs2 rs1 rd : Reg) (funct3 : BitVec 3) (opcode : BitVec 7) (imm12 : BitVec 12)
  (imm20 : BitVec 20)

/-- R-type layout bit by bit (30_encoding.md R61). -/
theorem getLsbD_packR (i : Nat) : (packR funct7 rs2 rs1 funct3 rd opcode).getLsbD i
    = if i < 7 then opcode.getLsbD i else if i < 12 then rd.getLsbD (i - 7)
      else if i < 15 then funct3.getLsbD (i - 12) else if i < 20 then rs1.getLsbD (i - 15)
      else if i < 25 then rs2.getLsbD (i - 20) else funct7.getLsbD (i - 25) := by
  change @BitVec.getLsbD (7 + 5 + 5 + 3 + 5 + 7) (funct7 ++ rs2 ++ rs1 ++ funct3 ++ rd ++ opcode) i = _
  simp only [BitVec.getLsbD_append, Nat.sub_sub]
  grind

/-- I-type layout bit by bit (30_encoding.md R62). -/
theorem getLsbD_packI (i : Nat) : (packI imm12 rs1 funct3 rd opcode).getLsbD i
    = if i < 7 then opcode.getLsbD i else if i < 12 then rd.getLsbD (i - 7)
      else if i < 15 then funct3.getLsbD (i - 12) else if i < 20 then rs1.getLsbD (i - 15)
      else imm12.getLsbD (i - 20) := by
  change @BitVec.getLsbD (12 + 5 + 3 + 5 + 7) (imm12 ++ rs1 ++ funct3 ++ rd ++ opcode) i = _
  simp only [BitVec.getLsbD_append, Nat.sub_sub]
  grind

/-- U-type layout bit by bit (30_encoding.md R63, R64). -/
theorem getLsbD_packU (i : Nat) : (packU imm20 rd opcode).getLsbD i
    = if i < 7 then opcode.getLsbD i else if i < 12 then rd.getLsbD (i - 7) else imm20.getLsbD (i - 12) := by
  change @BitVec.getLsbD (20 + 5 + 7) (imm20 ++ rd ++ opcode) i = _
  simp only [BitVec.getLsbD_append, Nat.sub_sub]
  grind

theorem opcodeField_packR : opcodeField (packR funct7 rs2 rs1 funct3 rd opcode) = opcode := by
  apply BitVec.eq_of_getLsbD_eq
  intro i hi
  rw [opcodeField, BitVec.getLsbD_extractLsb', getLsbD_packR]
  grind

theorem rdField_packR : rdField (packR funct7 rs2 rs1 funct3 rd opcode) = rd := by
  apply BitVec.eq_of_getLsbD_eq
  intro i hi
  rw [rdField, BitVec.getLsbD_extractLsb', getLsbD_packR]
  grind

theorem funct3Field_packR : funct3Field (packR funct7 rs2 rs1 funct3 rd opcode) = funct3 := by
  apply BitVec.eq_of_getLsbD_eq
  intro i hi
  rw [funct3Field, BitVec.getLsbD_extractLsb', getLsbD_packR]
  grind

theorem rs1Field_packR : rs1Field (packR funct7 rs2 rs1 funct3 rd opcode) = rs1 := by
  apply BitVec.eq_of_getLsbD_eq
  intro i hi
  rw [rs1Field, BitVec.getLsbD_extractLsb', getLsbD_packR]
  grind

theorem rs2Field_packR : rs2Field (packR funct7 rs2 rs1 funct3 rd opcode) = rs2 := by
  apply BitVec.eq_of_getLsbD_eq
  intro i hi
  rw [rs2Field, BitVec.getLsbD_extractLsb', getLsbD_packR]
  grind

theorem funct7Field_packR : funct7Field (packR funct7 rs2 rs1 funct3 rd opcode) = funct7 := by
  apply BitVec.eq_of_getLsbD_eq
  intro i hi
  rw [funct7Field, BitVec.getLsbD_extractLsb', getLsbD_packR]
  grind

theorem opcodeField_packI : opcodeField (packI imm12 rs1 funct3 rd opcode) = opcode := by
  apply BitVec.eq_of_getLsbD_eq
  intro i hi
  rw [opcodeField, BitVec.getLsbD_extractLsb', getLsbD_packI]
  grind

theorem rdField_packI : rdField (packI imm12 rs1 funct3 rd opcode) = rd := by
  apply BitVec.eq_of_getLsbD_eq
  intro i hi
  rw [rdField, BitVec.getLsbD_extractLsb', getLsbD_packI]
  grind

theorem funct3Field_packI : funct3Field (packI imm12 rs1 funct3 rd opcode) = funct3 := by
  apply BitVec.eq_of_getLsbD_eq
  intro i hi
  rw [funct3Field, BitVec.getLsbD_extractLsb', getLsbD_packI]
  grind

theorem rs1Field_packI : rs1Field (packI imm12 rs1 funct3 rd opcode) = rs1 := by
  apply BitVec.eq_of_getLsbD_eq
  intro i hi
  rw [rs1Field, BitVec.getLsbD_extractLsb', getLsbD_packI]
  grind

theorem imm12Field_packI : imm12Field (packI imm12 rs1 funct3 rd opcode) = imm12 := by
  apply BitVec.eq_of_getLsbD_eq
  intro i hi
  rw [imm12Field, BitVec.getLsbD_extractLsb', getLsbD_packI]
  grind

theorem opcodeField_packU : opcodeField (packU imm20 rd opcode) = opcode := by
  apply BitVec.eq_of_getLsbD_eq
  intro i hi
  rw [opcodeField, BitVec.getLsbD_extractLsb', getLsbD_packU]
  grind

theorem rdField_packU : rdField (packU imm20 rd opcode) = rd := by
  apply BitVec.eq_of_getLsbD_eq
  intro i hi
  rw [rdField, BitVec.getLsbD_extractLsb', getLsbD_packU]
  grind

theorem imm20Field_packU : imm20Field (packU imm20 rd opcode) = imm20 := by
  apply BitVec.eq_of_getLsbD_eq
  intro i hi
  rw [imm20Field, BitVec.getLsbD_extractLsb', getLsbD_packU]
  grind

end fields

theorem packR_fields (w : Word) :
    packR (funct7Field w) (rs2Field w) (rs1Field w) (funct3Field w) (rdField w) (opcodeField w) = w := by
  apply BitVec.eq_of_getLsbD_eq
  intro i hi
  simp only [getLsbD_packR, funct7Field, rs2Field, rs1Field, funct3Field, rdField, opcodeField, BitVec.getLsbD_extractLsb']
  grind

theorem packI_fields (w : Word) :
    packI (imm12Field w) (rs1Field w) (funct3Field w) (rdField w) (opcodeField w) = w := by
  apply BitVec.eq_of_getLsbD_eq
  intro i hi
  simp only [getLsbD_packI, imm12Field, rs1Field, funct3Field, rdField, opcodeField, BitVec.getLsbD_extractLsb']
  grind

theorem packU_fields (w : Word) : packU (imm20Field w) (rdField w) (opcodeField w) = w := by
  apply BitVec.eq_of_getLsbD_eq
  intro i hi
  simp only [getLsbD_packU, imm20Field, rdField, opcodeField, BitVec.getLsbD_extractLsb']
  grind

/-- The table's R-type mask keeps opcode, funct3 and funct7 (40_r_type.md R70). -/
theorem and_maskR (w : Word) :
    w &&& 0xFE00707F = packR (funct7Field w) 0 0 (funct3Field w) 0 (opcodeField w) := by
  apply BitVec.eq_of_getLsbD_eq
  intro i hi
  simp only [getLsbD_packR, funct7Field, funct3Field, opcodeField, BitVec.getLsbD_extractLsb', BitVec.getLsbD_and]
  interval_cases i <;> simp

/-- The table's I-type mask keeps opcode and funct3 (41_i_type.md R81). -/
theorem and_maskI (w : Word) : w &&& 0x0000707F = packI 0 0 (funct3Field w) 0 (opcodeField w) := by
  apply BitVec.eq_of_getLsbD_eq
  intro i hi
  simp only [getLsbD_packI, funct3Field, opcodeField, BitVec.getLsbD_extractLsb', BitVec.getLsbD_and]
  interval_cases i <;> simp

/-- The table's U-type mask keeps the opcode (42_u_type.md R91). -/
theorem and_maskU (w : Word) : w &&& 0x0000007F = packU 0 0 (opcodeField w) := by
  apply BitVec.eq_of_getLsbD_eq
  intro i hi
  simp only [getLsbD_packU, opcodeField, BitVec.getLsbD_extractLsb', BitVec.getLsbD_and]
  interval_cases i <;> simp

theorem render_length (w : Word) : (render w).length = 32 := by simp [render]

/-- Character `k` of a rendering (30_encoding.md R65). -/
theorem render_getElem? (w : Word) (k : Nat) (h : k < 32) :
    (render w)[k]? = some (if w.getLsbD (31 - k) then '1' else '0') := by
  simp [render, List.getElem?_map, List.getElem?_range h]

end Sys2Proof.Machine
end

