-- ==== Sys2Proof/Laws/Operands.lean ====
section
/-!
SUPPORT. What the operand decoders do: the decimal spelling is read back, the register decoder accepts exactly the 32
names, and the masker is the Euclidean remainder.
-/

namespace Sys2Proof.Machine

theorem digitChar_toNat {d : Nat} (h : d < 10) : (digitChar d).toNat = 48 + d := by
  revert d; decide

theorem decDigit_digitChar {d : Nat} (h : d < 10) : decDigit (digitChar d) = some d := by
  have := digitChar_toNat h
  simp [decDigit, this]; omega

/-- Reading the digits of `n` in front of `acc` continues with `n` read. -/
theorem digitsValue_decDigits (fuel n : Nat) (acc : Text) (k : Nat) (h : n < fuel) :
    ∃ p : Nat, digitsValue 10 decDigit k (decDigits fuel n acc)
      = digitsValue 10 decDigit (k * 10 ^ p + n) acc := by
  induction fuel generalizing n acc with
  | zero => omega
  | succ fuel ih =>
    unfold decDigits
    split
    · rename_i hn
      exact ⟨1, by simp [digitsValue, decDigit_digitChar hn]⟩
    · rename_i hn
      obtain ⟨p, hp⟩ := ih (n / 10) (digitChar (n % 10) :: acc) (by omega)
      refine ⟨p + 1, ?_⟩
      rw [hp]
      simp only [digitsValue, decDigit_digitChar (Nat.mod_lt n (by decide : 10 > 0))]
      congr 1
      rw [pow_succ, add_mul, ← mul_assoc]
      omega

/-- The decimal spelling in front of `acc` begins with a digit. -/
theorem decDigits_head (fuel n : Nat) (acc : Text) (h : n < fuel) :
    ∃ d cs, d < 10 ∧ decDigits fuel n acc = digitChar d :: cs := by
  induction fuel generalizing n acc with
  | zero => omega
  | succ fuel ih =>
    unfold decDigits
    split
    · exact ⟨n, acc, by assumption, rfl⟩
    · exact ih (n / 10) _ (by omega)

theorem dec_head (n : Nat) : ∃ d cs, d < 10 ∧ dec n = digitChar d :: cs :=
  decDigits_head (n + 1) n [] (by omega)

theorem decDigits_mem (fuel n : Nat) (acc : Text) {c : Char} (hc : c ∈ decDigits fuel n acc) :
    c ∈ acc ∨ ∃ d, d < 10 ∧ c = digitChar d := by
  induction fuel generalizing n acc with
  | zero => exact .inl hc
  | succ fuel ih =>
    unfold decDigits at hc
    split at hc
    · rcases List.mem_cons.1 hc with rfl | h
      · exact .inr ⟨n, by assumption, rfl⟩
      · exact .inl h
    · rcases ih (n / 10) _ hc with h | h
      · rcases List.mem_cons.1 h with rfl | h
        · exact .inr ⟨n % 10, Nat.mod_lt _ (by decide), rfl⟩
        · exact .inl h
      · exact .inr h

/-- Every character of a decimal spelling is a decimal digit. -/
theorem dec_mem {n : Nat} {c : Char} (hc : c ∈ dec n) : ∃ d, d < 10 ∧ c = digitChar d := by
  rcases decDigits_mem _ _ _ hc with h | h
  · simp at h
  · exact h

theorem dec_ne_nil (n : Nat) : dec n ≠ [] := by
  obtain ⟨d, cs, -, h⟩ := dec_head n
  simp [h]

theorem digits_dec (n : Nat) : digits 10 decDigit (dec n) = some n := by
  obtain ⟨d, cs, -, h⟩ := dec_head n
  obtain ⟨p, hp⟩ := digitsValue_decDigits (n + 1) n [] 0 (by omega)
  have h' : digits 10 decDigit (dec n) = digitsValue 10 decDigit 0 (dec n) := by
    rw [h]; rfl
  rw [h', dec, hp]
  simp [digitsValue]

theorem digitChar_not_sign {d : Nat} (h : d < 10) : digitChar d ≠ '-' ∧ digitChar d ≠ '+' ∧ digitChar d ≠ 'x' := by
  revert d; decide

/-- A decimal spelling is read back by `ParseDec`. -/
theorem parseDec_dec (n : Nat) : parseDec (dec n) = some (n : Int) := by
  obtain ⟨d, cs, hd, h⟩ := dec_head n
  have hn := digits_dec n
  rw [h] at hn ⊢
  simp [parseDec, digitChar_not_sign hd, hn]

/-- A decimal spelling never looks hexadecimal. -/
theorem dec_not_hexPrefix (n : Nat) : startsWithHexPrefix (dec n) = false := by
  by_contra hne
  have h : (dec n).take 2 = ['0', 'x'] := by simpa [startsWithHexPrefix] using hne
  have hx : 'x' ∈ dec n := List.mem_of_mem_take (i := 2) (by simp [h])
  obtain ⟨d, hd, hc⟩ := dec_mem hx
  exact (digitChar_not_sign hd).2.2 hc.symm

/-- A decimal spelling is read back by `ParseImm` for every format and value of the parameter. -/
theorem parseImm_dec (hex : Bool) (fmt : Format) (n : Nat) : parseImm hex fmt (dec n) = some (n : Int) := by
  cases fmt <;> simp [parseImm, dec_not_hexPrefix, parseDec_dec]

theorem regName_injective {a b : Nat} (h : regName a = regName b) : a = b := by
  have := digits_dec a
  rw [show dec a = dec b by simpa [regName] using h, digits_dec] at this
  simpa using this.symm

theorem regDecode_eq_some {t : Token} {r : Reg} : regDecode t = some r ↔ t = regName r.toNat := by
  unfold regDecode
  rw [List.findSome?_eq_some_iff]
  constructor
  · rintro ⟨l₁, n, l₂, hl, hn, -⟩
    have hmem : n ∈ List.range 32 := by rw [hl]; simp
    have hlt : n < 32 := by simpa using hmem
    split at hn
    · obtain rfl : BitVec.ofNat 5 n = r := by simpa using hn
      rw [BitVec.toNat_ofNat, Nat.mod_eq_of_lt (by simpa using hlt)]
      assumption
    · cases hn
  · rintro rfl
    have hlt : r.toNat < 32 := r.isLt
    refine ⟨List.range r.toNat, r.toNat, (List.range' (r.toNat + 1) (31 - r.toNat)), ?_, ?_, ?_⟩
    · rw [List.range_eq_range', List.range_eq_range', ← List.range'_succ,
        show 31 - r.toNat + 1 = 32 - r.toNat by omega]
      have h := List.range'_append (s := 0) (m := r.toNat) (n := 32 - r.toNat) (step := 1)
      rw [show r.toNat + (32 - r.toNat) = 32 by omega] at h
      simpa using h.symm
    · simp
    · intro a ha
      have : a < r.toNat := by simpa using ha
      have hne : regName r.toNat ≠ regName a := fun h => by
        have := regName_injective h
        omega
      simp [hne]

/-- `RegDecode` reads every register name back. -/
theorem regDecode_regName (r : Reg) : regDecode (regName r.toNat) = some r := regDecode_eq_some.2 rfl

theorem mem_regNames {t : Token} : t ∈ regNames ↔ ∃ r : Reg, t = regName r.toNat := by
  simp only [regNames, List.mem_map, List.mem_range]
  constructor
  · rintro ⟨n, hn, rfl⟩
    exact ⟨BitVec.ofNat 5 n, by rw [BitVec.toNat_ofNat, Nat.mod_eq_of_lt (by simpa using hn)]⟩
  · rintro ⟨r, rfl⟩
    exact ⟨r.toNat, r.isLt, rfl⟩

theorem regDecode_isSome {t : Token} : (regDecode t).isSome = true ↔ t ∈ regNames := by
  rw [mem_regNames, Option.isSome_iff_exists]
  simp [regDecode_eq_some]

theorem regDecode_eq_none {t : Token} : regDecode t = none ↔ t ∉ regNames := by
  rw [← regDecode_isSome]; simp

theorem isRegister_eq (t : Token) : isRegister t = (regDecode t).isSome := by
  rw [Bool.eq_iff_iff, regDecode_isSome]
  simp [isRegister]

/-- The masked value, as the remainder of 30_encoding.md R59. -/
theorem mask_toNat (n : Nat) (v : Int) : ((mask n v).toNat : Int) = v % (2 : Int) ^ n := by
  have hp : (0 : Int) < (2 : Int) ^ n := by positivity
  have h0 := Int.emod_nonneg v hp.ne'
  have h1 := Int.emod_lt_of_pos v hp
  have hlt : (v % (2 : Int) ^ n).toNat < 2 ^ n := by
    zify
    rw [Int.toNat_of_nonneg h0]
    exact h1
  rw [mask, BitVec.toNat_ofNat, Nat.mod_eq_of_lt hlt, Int.toNat_of_nonneg h0]

/-- A field value is its own mask. -/
theorem mask_toNat_self {n : Nat} (b : BitVec n) : mask n (b.toNat : Int) = b := by
  apply BitVec.eq_of_toNat_eq
  have h := mask_toNat n (b.toNat : Int)
  rw [Int.emod_eq_of_lt (by positivity) (by exact_mod_cast b.isLt)] at h
  exact_mod_cast h

end Sys2Proof.Machine
end

