-- ==== Sys2Proof/Laws/Text.lean ====
section
/-!
SUPPORT. What the tokenizer does to a line, and that the spellings the model writes hold no separator.
-/

namespace Sys2Proof

open Sys2Proof.Machine

theorem tokens_nil : tokens [] = [] := rfl

theorem tokens_separator (c : Char) (l : Line) (h : isSeparator c = true) : tokens (c :: l) = tokens l := by
  simp [tokens, tokensFrom, h]

/-- A run of other characters joins the token being read. -/
theorem tokensFrom_run (t : Token) (cur : Token) (l : Line) (h : ∀ c ∈ t, isSeparator c = false) :
    tokensFrom cur (t ++ l) = tokensFrom (cur ++ t) l := by
  induction t generalizing cur with
  | nil => simp
  | cons c cs ih =>
    have hc : isSeparator c = false := h c (by simp)
    have := ih (cur ++ [c]) fun x hx => h x (by simp [hx])
    simp [tokensFrom, hc, this]

theorem tokens_run (t : Token) (h0 : t ≠ []) (h : ∀ c ∈ t, isSeparator c = false) : tokens t = [t] := by
  have := tokensFrom_run t [] [] h
  simp only [List.append_nil, List.nil_append] at this
  simp [tokens, this, tokensFrom, h0]

theorem tokens_run_separator (t : Token) (c : Char) (l : Line) (h0 : t ≠ [])
    (h : ∀ x ∈ t, isSeparator x = false) (hc : isSeparator c = true) :
    tokens (t ++ c :: l) = t :: tokens l := by
  rw [tokens, tokensFrom_run t [] _ h]
  simp [tokensFrom, hc, h0, tokens]

theorem tokens_separators (pre : Text) (l : Line) (h : ∀ c ∈ pre, isSeparator c = true) :
    tokens (pre ++ l) = tokens l := by
  induction pre with
  | nil => rfl
  | cons c cs ih =>
    rw [List.cons_append, tokens_separator c _ (h c (by simp)), ih fun x hx => h x (by simp [hx])]

/-- Every token the tokenizer gives is non-empty and holds no separator (30_encoding.md R42). -/
theorem tokensFrom_mem (cur : Token) (l : Line) (hcur : ∀ c ∈ cur, isSeparator c = false) {t : Token}
    (ht : t ∈ tokensFrom cur l) : t ≠ [] ∧ ∀ c ∈ t, isSeparator c = false := by
  induction l generalizing cur with
  | nil =>
    unfold tokensFrom at ht
    split at ht
    · simp at ht
    · rw [List.mem_singleton] at ht
      subst ht
      exact ⟨by assumption, hcur⟩
  | cons c cs ih =>
    unfold tokensFrom at ht
    split at ht
    · split at ht
      · exact ih [] (by simp) ht
      · rcases List.mem_cons.1 ht with rfl | ht
        · exact ⟨by assumption, hcur⟩
        · exact ih [] (by simp) ht
    · rename_i hc
      refine ih (cur ++ [c]) ?_ ht
      intro x hx
      rcases List.mem_append.1 hx with hx | hx
      · exact hcur x hx
      · simp only [List.mem_singleton] at hx
        subst hx
        simpa using hc

theorem tokens_mem {l : Line} {t : Token} (ht : t ∈ tokens l) : t ≠ [] ∧ ∀ c ∈ t, isSeparator c = false :=
  tokensFrom_mem [] l (by simp) ht

theorem digitChar_not_separator {d : Nat} (h : d < 10) : isSeparator (digitChar d) = false := by
  revert d; decide

theorem dec_not_separator (n : Nat) : ∀ c ∈ dec n, isSeparator c = false := by
  intro c hc
  obtain ⟨d, hd, rfl⟩ := dec_mem hc
  exact digitChar_not_separator hd

theorem regName_not_separator (n : Nat) : ∀ c ∈ regName n, isSeparator c = false := by
  intro c hc
  rcases List.mem_cons.1 hc with rfl | hc
  · decide
  · exact dec_not_separator n c hc

theorem key_ne_nil (m : Mnemonic) : m.key ≠ [] := by cases m <;> decide

theorem key_not_separator (m : Mnemonic) : ∀ c ∈ m.key, isSeparator c = false := by
  have h : m.key.all (fun c => !isSeparator c) = true := by cases m <;> rfl
  simpa using h

/-- Tokens written with one space in front of each are read back. -/
theorem tokens_spaced_by_one (t : Token) (ts : List Token) (h0 : t ≠ []) (h : ∀ c ∈ t, isSeparator c = false)
    (hts : ∀ x ∈ ts, x ≠ [] ∧ ∀ c ∈ x, isSeparator c = false) :
    tokens (t ++ ts.flatMap fun x => ' ' :: x) = t :: ts := by
  induction ts generalizing t with
  | nil => simpa using tokens_run t h0 h
  | cons x xs ih =>
    have hx := hts x (by simp)
    rw [List.flatMap_cons, List.cons_append, tokens_run_separator t ' ' _ h0 h (by decide),
      ih x hx.1 hx.2 fun y hy => hts y (by simp [hy])]

/-- The line of an instruction is read back into its key and its operand tokens. -/
theorem tokens_line (i : Instr) (h : ∀ x ∈ i.ops, x ≠ [] ∧ ∀ c ∈ x, isSeparator c = false) :
    tokens i.line = i.mnemonic.key :: i.ops :=
  tokens_spaced_by_one _ _ (key_ne_nil _) (key_not_separator _) h

end Sys2Proof
end

