-- ==== Sys2Proof/Laws/Decode.lean ====
section
/-!
SUPPORT. Lookup, the instruction of a line, what the encoder needs to give a word, and the rows that cover a word.
-/

namespace Sys2Proof

open Sys2Proof.Machine

@[simp] theorem instr_mnemonic (m : Mnemonic) (ops : List Token) : (m.instr ops).mnemonic = m := by cases m <;> rfl

@[simp] theorem instr_ops (m : Mnemonic) (ops : List Token) : (m.instr ops).ops = ops := by cases m <;> rfl

@[simp] theorem instr_mnemonic_ops (i : Instr) : i.mnemonic.instr i.ops = i := by cases i <;> rfl

theorem mem_all (m : Mnemonic) : m ∈ Mnemonic.all := by cases m <;> decide

/-- `Lookup` finds exactly the mnemonic whose key is the token (30_encoding.md R46). -/
theorem lookup_eq_some {t : Token} {m : Mnemonic} : lookup t = some m ↔ t = m.key := by
  constructor
  · intro h
    simpa using List.find?_some h
  · rintro rfl
    cases m <;> decide

theorem lookup_key (m : Mnemonic) : lookup m.key = some m := lookup_eq_some.2 rfl

theorem key_injective {a b : Mnemonic} (h : a.key = b.key) : a = b := by
  have := lookup_key a
  rw [h, lookup_key] at this
  simpa using this.symm

theorem lookup_eq_none {t : Token} : lookup t = none ↔ ∀ m : Mnemonic, t ≠ m.key := by
  constructor
  · rintro h m rfl
    rw [lookup_key] at h
    cases h
  · intro h
    cases hl : lookup t with
    | none => rfl
    | some m => exact absurd (lookup_eq_some.1 hl) (h m)

/-- The line of an instruction decodes to it, when no operand token is empty or holds a separator. -/
theorem decodeLine_line (i : Instr) (h : ∀ x ∈ i.ops, x ≠ [] ∧ ∀ c ∈ x, isSeparator c = false) :
    decodeLine i.line = .instr i := by
  simp [decodeLine, tokens_line i h, lookup_key]

theorem regOperand_regName (r : Reg) (pos : Pos) : regOperand (regName r.toNat) pos = .ok r := by
  simp [regOperand, regDecode_regName]

theorem immOperand_dec (hex : Bool) (fmt : Format) (n : Nat) (pos : Pos) :
    immOperand hex fmt (dec n) pos = .ok (n : Int) := by
  simp [immOperand, parseImm_dec]

theorem regOperand_isOk (t : Token) (pos : Pos) :
    (∃ r, regOperand t pos = .ok r) ↔ isRegister t = true := by
  rw [isRegister_eq, regOperand]
  cases regDecode t <;> simp

/-- What a successful encoding says, format by format. -/
theorem encodeOps_eq_ok {hex : Bool} {d : Descriptor} {ops : List Token} {w : Word} {o : Bool} :
    encodeOps hex d ops = .ok (w, o) ↔
      match d with
      | .r opcode funct3 funct7 => ∃ rd rs1 rs2 : Reg,
          ops = [regName rd.toNat, regName rs1.toNat, regName rs2.toNat] ∧
          w = packR funct7 rs2 rs1 funct3 rd opcode ∧ o = false
      | .i opcode funct3 => ∃ (rd rs1 : Reg) (t : Token) (v : Int),
          ops = [regName rd.toNat, regName rs1.toNat, t] ∧ parseImm hex .I t = some v ∧
          w = packI (mask 12 v) rs1 funct3 rd opcode ∧ o = ovf 12 v
      | .u opcode => ∃ (rd : Reg) (t : Token) (v : Int),
          ops = [regName rd.toNat, t] ∧ parseImm hex .U t = some v ∧
          w = packU (mask 20 v) rd opcode ∧ o = ovf 20 v := by
  constructor
  · intro h
    unfold encodeOps at h
    split at h
    · rename_i t1 t2 t3
      simp only [regOperand, bind, Except.bind, pure, Except.pure] at h
      cases h1 : regDecode t1 <;> simp only [h1] at h <;> try cases h
      cases h2 : regDecode t2 <;> simp only [h2] at h <;> try cases h
      cases h3 : regDecode t3 <;> simp only [h3] at h <;> try cases h
      rename_i rd rs1 rs2
      exact ⟨rd, rs1, rs2, by rw [regDecode_eq_some.1 h1, regDecode_eq_some.1 h2, regDecode_eq_some.1 h3], rfl, rfl⟩
    · rename_i t1 t2 t3
      simp only [regOperand, immOperand, bind, Except.bind, pure, Except.pure] at h
      cases h1 : regDecode t1 <;> simp only [h1] at h <;> try cases h
      cases h2 : regDecode t2 <;> simp only [h2] at h <;> try cases h
      cases h3 : parseImm hex .I t3 <;> simp only [h3] at h <;> try cases h
      rename_i rd rs1 v
      exact ⟨rd, rs1, t3, v, by rw [regDecode_eq_some.1 h1, regDecode_eq_some.1 h2], h3, rfl, rfl⟩
    · rename_i t1 t2
      simp only [regOperand, immOperand, bind, Except.bind, pure, Except.pure] at h
      cases h1 : regDecode t1 <;> simp only [h1] at h <;> try cases h
      cases h3 : parseImm hex .U t2 <;> simp only [h3] at h <;> try cases h
      rename_i rd v
      exact ⟨rd, t2, v, by rw [regDecode_eq_some.1 h1], h3, rfl, rfl⟩
    · cases h
  · intro h
    cases d with
    | r opcode funct3 funct7 =>
      obtain ⟨rd, rs1, rs2, rfl, rfl, rfl⟩ := h
      simp [encodeOps, regOperand_regName, bind, Except.bind, pure, Except.pure]
    | i opcode funct3 =>
      obtain ⟨rd, rs1, t, v, rfl, hv, rfl, rfl⟩ := h
      simp [encodeOps, regOperand_regName, immOperand, hv, bind, Except.bind, pure, Except.pure]
    | u opcode =>
      obtain ⟨rd, t, v, rfl, hv, rfl, rfl⟩ := h
      simp [encodeOps, regOperand_regName, immOperand, hv, bind, Except.bind, pure, Except.pure]

theorem encode_eq_some {hex : Bool} {i : Instr} {w : Word} :
    encode hex i = some w ↔ ∃ o, encodeOps hex (descriptor i.mnemonic) i.ops = .ok (w, o) := by
  unfold encode
  split
  · rename_i h
    simp [h]
  · rename_i h
    simp [h]

theorem result_eq_ok {hex : Bool} {i : Instr} {w : Word} {o : Bool} :
    i.result hex = .ok w o ↔ encodeOps hex (descriptor i.mnemonic) i.ops = .ok (w, o) := by
  unfold Instr.result
  split
  · rename_i h
    simp [h]
  · rename_i h
    simp [h]

theorem wellFormedR_iff {ops : List Token} : wellFormedR ops = true ↔
    ∃ rd rs1 rs2 : Reg, ops = [regName rd.toNat, regName rs1.toNat, regName rs2.toNat] := by
  unfold wellFormedR
  split
  · simp only [Bool.and_eq_true, isRegister, List.contains_iff_mem, mem_regNames, List.cons.injEq, and_true]
    constructor
    · rintro ⟨⟨⟨a, rfl⟩, ⟨b, rfl⟩⟩, ⟨c, rfl⟩⟩
      exact ⟨a, b, c, rfl, rfl, rfl⟩
    · rintro ⟨a, b, c, rfl, rfl, rfl⟩
      exact ⟨⟨⟨a, rfl⟩, ⟨b, rfl⟩⟩, ⟨c, rfl⟩⟩
  · rename_i h
    simp only [Bool.false_eq_true, false_iff]
    rintro ⟨a, b, c, rfl⟩
    exact h _ _ _ rfl

theorem wellFormedI_iff {hex : Bool} {ops : List Token} : wellFormedI hex ops = true ↔
    ∃ (rd rs1 : Reg) (t : Token) (v : Int),
      ops = [regName rd.toNat, regName rs1.toNat, t] ∧ parseImm hex .I t = some v := by
  unfold wellFormedI
  split
  · simp only [Bool.and_eq_true, isRegister, isImmediate, List.contains_iff_mem, mem_regNames, List.cons.injEq,
      and_true, Option.isSome_iff_exists]
    constructor
    · rintro ⟨⟨⟨a, rfl⟩, ⟨b, rfl⟩⟩, ⟨v, hv⟩⟩
      exact ⟨a, b, _, v, ⟨rfl, rfl, rfl⟩, hv⟩
    · rintro ⟨a, b, _, v, ⟨rfl, rfl, rfl⟩, hv⟩
      exact ⟨⟨⟨a, rfl⟩, ⟨b, rfl⟩⟩, ⟨v, hv⟩⟩
  · rename_i h
    simp only [Bool.false_eq_true, false_iff]
    rintro ⟨a, b, t, v, rfl, -⟩
    exact h _ _ _ rfl

theorem wellFormedU_iff {hex : Bool} {ops : List Token} : wellFormedU hex ops = true ↔
    ∃ (rd : Reg) (t : Token) (v : Int), ops = [regName rd.toNat, t] ∧ parseImm hex .U t = some v := by
  unfold wellFormedU
  split
  · simp only [Bool.and_eq_true, isRegister, isImmediate, List.contains_iff_mem, mem_regNames, List.cons.injEq,
      and_true, Option.isSome_iff_exists]
    constructor
    · rintro ⟨⟨a, rfl⟩, ⟨v, hv⟩⟩
      exact ⟨a, _, v, ⟨rfl, rfl⟩, hv⟩
    · rintro ⟨a, _, v, ⟨rfl, rfl⟩, hv⟩
      exact ⟨⟨a, rfl⟩, ⟨v, hv⟩⟩
  · rename_i h
    simp only [Bool.false_eq_true, false_iff]
    rintro ⟨a, t, v, rfl, -⟩
    exact h _ _ rfl

/-- The well-formedness check, through the descriptor's format. -/
theorem wellFormed_eq (hex : Bool) (i : Instr) : i.wellFormed hex =
    match (descriptor i.mnemonic).format with
    | .R => wellFormedR i.ops
    | .I => wellFormedI hex i.ops
    | .U => wellFormedU hex i.ops := by
  cases i <;> rfl

end Sys2Proof
end

