-- ==== Sys2Proof/Laws/State.lean ====
section
/-!
SUPPORT. One lemma per field of State for each update of it, true by definition.
-/

namespace Sys2Proof.Machine

@[simp] theorem record_uniformImmHex (s : State) (r : Result) :
    (s.record r).uniformImmHex = s.uniformImmHex := rfl

@[simp] theorem record_pending (s : State) (r : Result) : (s.record r).pending = s.pending := rfl

@[simp] theorem record_results (s : State) (r : Result) : (s.record r).results = s.results ++ [r] := rfl

@[simp] theorem record_outputStream (s : State) (r : Result) :
    (s.record r).outputStream = s.outputStream ++ emit r := rfl

@[simp] theorem reset_uniformImmHex : State.reset.uniformImmHex = false := rfl

@[simp] theorem reset_pending : State.reset.pending = [] := rfl

@[simp] theorem reset_results : State.reset.results = [] := rfl

@[simp] theorem reset_outputStream : State.reset.outputStream = [] := rfl

/-- The state in which a line has been taken: only `pending` differs. -/
theorem takeLine_cons (s : State) (line : Line) (rest : List Line) (h : s.pending = line :: rest) :
    takeLine s = some (line, { s with pending := rest }) := by
  simp [takeLine, h]

theorem takeLine_nil (s : State) (h : s.pending = []) : takeLine s = none := by
  simp [takeLine, h]

theorem emitAll_append (rs : List Result) (r : Result) : emitAll (rs ++ [r]) = emitAll rs ++ emit r := by
  simp [emitAll]

end Sys2Proof.Machine
end

