-- ==== Sys2Proof/Laws/Ops.lean ====
section
/-!
SUPPORT. What each shared operation of the machine does, said once: the three format encoders answer a next state in which
the result of `encodeOps` is recorded; and one step of a run of the host's `core`.
-/

namespace Sys2Proof.Machine

/-- The result an `Except` answer of `encodeOps` stands for. -/
def resultOf : Except (ErrKind × Pos) (Word × Bool) → Result
  | .ok (w, o) => .ok w o
  | .error (kind, pos) => .err kind pos

theorem result_eq_resultOf (hex : Bool) (i : Instr) :
    i.result hex = resultOf (encodeOps hex (descriptor i.mnemonic) i.ops) := by
  unfold Instr.result
  split <;> rename_i h <;> rw [h] <;> rfl

theorem encR_spec (opcode : BitVec 7) (funct3 : BitVec 3) (funct7 : BitVec 7) (ops : List Token) (s : State) :
    encR opcode funct3 funct7 ops s
      = .next (s.record (resultOf (encodeOps s.uniformImmHex (.r opcode funct3 funct7) ops))) := by
  unfold encR
  split
  · rename_i t1 t2 t3
    simp only [encodeOps, withRegister, regOperand, bind, Except.bind, pure, Except.pure]
    cases regDecode t1 <;> [rfl; cases regDecode t2 <;> [rfl; cases regDecode t3 <;> rfl]]
  · rename_i h
    unfold encodeOps
    split <;> first | (exact absurd rfl (h _ _ _)) | rfl | cases ‹Descriptor.r _ _ _ = _›

theorem encI_spec (opcode : BitVec 7) (funct3 : BitVec 3) (ops : List Token) (s : State) :
    encI opcode funct3 ops s
      = .next (s.record (resultOf (encodeOps s.uniformImmHex (.i opcode funct3) ops))) := by
  unfold encI
  split
  · rename_i t1 t2 t3
    simp only [encodeOps, withRegister, withImmediate, regOperand, immOperand, bind, Except.bind, pure, Except.pure]
    cases regDecode t1 <;> [rfl; cases regDecode t2 <;> [rfl; cases parseImm s.uniformImmHex .I t3 <;> rfl]]
  · rename_i h
    unfold encodeOps
    split <;> first | (exact absurd rfl (h _ _ _)) | rfl | cases ‹Descriptor.i _ _ = _›

theorem encU_spec (opcode : BitVec 7) (ops : List Token) (s : State) :
    encU opcode ops s = .next (s.record (resultOf (encodeOps s.uniformImmHex (.u opcode) ops))) := by
  unfold encU
  split
  · rename_i t1 t2
    simp only [encodeOps, withRegister, withImmediate, regOperand, immOperand, bind, Except.bind, pure, Except.pure]
    cases regDecode t1 <;> [rfl; cases parseImm s.uniformImmHex .U t2 <;> rfl]
  · rename_i h
    unfold encodeOps
    split <;> first | (exact absurd rfl (h _ _)) | rfl | cases ‹Descriptor.u _ = _›

/-- A run whose first step answers `t` goes on from `t`. -/
theorem run_succ (n : Nat) (s t : State) (h : step s = .next t) :
    Host.Core.run Sys2Proof.core (n + 1) s = Host.Core.run Sys2Proof.core n t := by
  have general : ∀ (M : Host.Core) (a b : M.State), M.step a = .next b → M.run (n + 1) a = M.run n b := by
    intro M a b hab
    rw [Host.Core.run.eq_def]
    simp only [hab]
  exact general Sys2Proof.core s t h

end Sys2Proof.Machine
end

