-- ==== Sys2Proof/Laws/PerInstr.lean ====
section
/-!
SUPPORT. Two families of facts about instructions as syntax, one lemma per constructor.
`EncodeDefined`: the encoder has a word exactly for the well-formed instructions (30_encoding.md R69).
`TablePattern`: a word of the encoder is of the mnemonic's pattern in spec/opcode_table.json (30_encoding.md R66).
-/

namespace Sys2Proof.Laws

open Sys2Proof.Machine

def EncodeDefined.Statement (i : Instr) : Prop :=
  ∀ hex : Bool, (encode hex i).isSome = i.wellFormed hex

theorem encodeDefined_of (i : Instr) : EncodeDefined.Statement i := by
  intro hex
  rw [Bool.eq_iff_iff, Option.isSome_iff_exists, wellFormed_eq]
  simp only [encode_eq_some, encodeOps_eq_ok]
  cases hd : descriptor i.mnemonic with
  | r opcode funct3 funct7 =>
    simp only [Descriptor.format, wellFormedR_iff]
    exact ⟨fun ⟨_, _, a, b, c, h, _, _⟩ => ⟨a, b, c, h⟩, fun ⟨a, b, c, h⟩ => ⟨_, _, a, b, c, h, rfl, rfl⟩⟩
  | i opcode funct3 =>
    simp only [Descriptor.format, wellFormedI_iff]
    exact ⟨fun ⟨_, _, a, b, t, v, h, hv, _, _⟩ => ⟨a, b, t, v, h, hv⟩,
      fun ⟨a, b, t, v, h, hv⟩ => ⟨_, _, a, b, t, v, h, hv, rfl, rfl⟩⟩
  | u opcode =>
    simp only [Descriptor.format, wellFormedU_iff]
    exact ⟨fun ⟨_, _, a, t, v, h, hv, _, _⟩ => ⟨a, t, v, h, hv⟩,
      fun ⟨a, t, v, h, hv⟩ => ⟨_, _, a, t, v, h, hv, rfl, rfl⟩⟩

def TablePattern.Statement (i : Instr) : Prop :=
  ∀ (hex : Bool) (w : Word), encode hex i = some w → i.mnemonic ∈ mnemonicsOf w

/-- The mask of a descriptor's format (40_r_type.md R70, 41_i_type.md R81, 42_u_type.md R91). -/
def maskOf : Descriptor → Word
  | .r _ _ _ => 0xFE00707F
  | .i _ _ => 0x0000707F
  | .u _ => 0x0000007F

/-- The fixed bits of a descriptor, in their places. -/
def patternOf : Descriptor → Word
  | .r opcode funct3 funct7 => packR funct7 0 0 funct3 0 opcode
  | .i opcode funct3 => packI 0 0 funct3 0 opcode
  | .u opcode => packU 0 0 opcode

/-- The row of a mnemonic in spec/opcode_table.json has the fixed bits of its descriptor (30_encoding.md R47). -/
theorem row_of_descriptor (m : Mnemonic) : ∃ row ∈ opcodeRows, row.mnemonic = m ∧
    row.mask = maskOf (descriptor m) ∧ row.pattern = patternOf (descriptor m) := by
  cases m <;> decide

theorem tablePattern_of (i : Instr) : TablePattern.Statement i := by
  intro hex w h
  obtain ⟨row, hrow, hm, hmask, hpat⟩ := row_of_descriptor i.mnemonic
  obtain ⟨o, ho⟩ := encode_eq_some.1 h
  rw [encodeOps_eq_ok] at ho
  refine List.mem_map.2 ⟨row, List.mem_filter.2 ⟨hrow, ?_⟩, hm⟩
  simp only [OpcodeRow.covers, beq_iff_eq]
  cases hd : descriptor i.mnemonic with
  | r opcode funct3 funct7 =>
    simp only [hd] at ho hmask hpat
    obtain ⟨rd, rs1, rs2, -, rfl, -⟩ := ho
    simp only [maskOf, patternOf] at hmask hpat
    rw [hmask, hpat, and_maskR, funct7Field_packR, funct3Field_packR, opcodeField_packR]
  | i opcode funct3 =>
    simp only [hd] at ho hmask hpat
    obtain ⟨rd, rs1, t, v, -, -, rfl, -⟩ := ho
    simp only [maskOf, patternOf] at hmask hpat
    rw [hmask, hpat, and_maskI, funct3Field_packI, opcodeField_packI]
  | u opcode =>
    simp only [hd] at ho hmask hpat
    obtain ⟨rd, t, v, -, -, rfl, -⟩ := ho
    simp only [maskOf, patternOf] at hmask hpat
    rw [hmask, hpat, and_maskU, opcodeField_packU]

theorem EncodeDefined.add (ops : List Token) : EncodeDefined.Statement (.add ops) := encodeDefined_of _
theorem EncodeDefined.sub (ops : List Token) : EncodeDefined.Statement (.sub ops) := encodeDefined_of _
theorem EncodeDefined.and (ops : List Token) : EncodeDefined.Statement (.and ops) := encodeDefined_of _
theorem EncodeDefined.or (ops : List Token) : EncodeDefined.Statement (.or ops) := encodeDefined_of _
theorem EncodeDefined.xor (ops : List Token) : EncodeDefined.Statement (.xor ops) := encodeDefined_of _
theorem EncodeDefined.sll (ops : List Token) : EncodeDefined.Statement (.sll ops) := encodeDefined_of _
theorem EncodeDefined.srl (ops : List Token) : EncodeDefined.Statement (.srl ops) := encodeDefined_of _
theorem EncodeDefined.sra (ops : List Token) : EncodeDefined.Statement (.sra ops) := encodeDefined_of _
theorem EncodeDefined.stl (ops : List Token) : EncodeDefined.Statement (.stl ops) := encodeDefined_of _
theorem EncodeDefined.stlu (ops : List Token) : EncodeDefined.Statement (.stlu ops) := encodeDefined_of _
theorem EncodeDefined.addi (ops : List Token) : EncodeDefined.Statement (.addi ops) := encodeDefined_of _
theorem EncodeDefined.andi (ops : List Token) : EncodeDefined.Statement (.andi ops) := encodeDefined_of _
theorem EncodeDefined.ori (ops : List Token) : EncodeDefined.Statement (.ori ops) := encodeDefined_of _
theorem EncodeDefined.xori (ops : List Token) : EncodeDefined.Statement (.xori ops) := encodeDefined_of _
theorem EncodeDefined.slti (ops : List Token) : EncodeDefined.Statement (.slti ops) := encodeDefined_of _
theorem EncodeDefined.sltiu (ops : List Token) : EncodeDefined.Statement (.sltiu ops) := encodeDefined_of _
theorem EncodeDefined.slli (ops : List Token) : EncodeDefined.Statement (.slli ops) := encodeDefined_of _
theorem EncodeDefined.srli (ops : List Token) : EncodeDefined.Statement (.srli ops) := encodeDefined_of _
theorem EncodeDefined.srai (ops : List Token) : EncodeDefined.Statement (.srai ops) := encodeDefined_of _
theorem EncodeDefined.lui (ops : List Token) : EncodeDefined.Statement (.lui ops) := encodeDefined_of _
theorem EncodeDefined.auipc (ops : List Token) : EncodeDefined.Statement (.auipc ops) := encodeDefined_of _

theorem TablePattern.add (ops : List Token) : TablePattern.Statement (.add ops) := tablePattern_of _
theorem TablePattern.sub (ops : List Token) : TablePattern.Statement (.sub ops) := tablePattern_of _
theorem TablePattern.and (ops : List Token) : TablePattern.Statement (.and ops) := tablePattern_of _
theorem TablePattern.or (ops : List Token) : TablePattern.Statement (.or ops) := tablePattern_of _
theorem TablePattern.xor (ops : List Token) : TablePattern.Statement (.xor ops) := tablePattern_of _
theorem TablePattern.sll (ops : List Token) : TablePattern.Statement (.sll ops) := tablePattern_of _
theorem TablePattern.srl (ops : List Token) : TablePattern.Statement (.srl ops) := tablePattern_of _
theorem TablePattern.sra (ops : List Token) : TablePattern.Statement (.sra ops) := tablePattern_of _
theorem TablePattern.stl (ops : List Token) : TablePattern.Statement (.stl ops) := tablePattern_of _
theorem TablePattern.stlu (ops : List Token) : TablePattern.Statement (.stlu ops) := tablePattern_of _
theorem TablePattern.addi (ops : List Token) : TablePattern.Statement (.addi ops) := tablePattern_of _
theorem TablePattern.andi (ops : List Token) : TablePattern.Statement (.andi ops) := tablePattern_of _
theorem TablePattern.ori (ops : List Token) : TablePattern.Statement (.ori ops) := tablePattern_of _
theorem TablePattern.xori (ops : List Token) : TablePattern.Statement (.xori ops) := tablePattern_of _
theorem TablePattern.slti (ops : List Token) : TablePattern.Statement (.slti ops) := tablePattern_of _
theorem TablePattern.sltiu (ops : List Token) : TablePattern.Statement (.sltiu ops) := tablePattern_of _
theorem TablePattern.slli (ops : List Token) : TablePattern.Statement (.slli ops) := tablePattern_of _
theorem TablePattern.srli (ops : List Token) : TablePattern.Statement (.srli ops) := tablePattern_of _
theorem TablePattern.srai (ops : List Token) : TablePattern.Statement (.srai ops) := tablePattern_of _
theorem TablePattern.lui (ops : List Token) : TablePattern.Statement (.lui ops) := tablePattern_of _
theorem TablePattern.auipc (ops : List Token) : TablePattern.Statement (.auipc ops) := tablePattern_of _

end Sys2Proof.Laws
end

