-- ==== Sys2Proof/Tests/Slice0.lean ====
section
/-!
SUPPORT. The model's own tests. Expected results come from spec/95_test_vectors.md and the examples of the rules
R71-R93; words to be read back are written out from the layouts R61-R63. The last part has one witness for every
statement with hypotheses.
-/

namespace Sys2Proof.Tests

open Sys2Proof Sys2Proof.Machine Sys2Proof.Statements

/-- The results of one step on one line, from a fresh run. -/
def resultOn (hex : Bool) (line : String) : List Result :=
  match step (State.start hex [line.toList]) with
  | .next t => t.results
  | _ => []

/-- The output lines of one step on one line, as strings, from a fresh run. -/
def outputOn (hex : Bool) (line : String) : List String :=
  match step (State.start hex [line.toList]) with
  | .next t => t.outputStream.map String.ofList
  | _ => []

/-- The results of the first step after reset with a table word placed. -/
def resultOfWord (w : Nat) : List Result :=
  match step (State.reset.withFetchWord 32 w) with
  | .next t => t.results
  | _ => []

/-- The single result `OK(w, ovf)`. -/
def gives (w : Word) (o : Bool := false) : List Result := [.ok w o]

/-- The single result `ERR(kind, pos)`. -/
def rejects (kind : ErrKind) (pos : Pos) : List Result := [.err kind pos]

/-- Operand tokens from strings. -/
def toks (ts : List String) : List Token := ts.map String.toList

/-! ## Well-formedness: each check refuses an ill-formed term (30_encoding.md R69) -/

theorem test_wf_accepts :
    Instr.wellFormed false (.add (toks ["x0", "x31", "x7"])) = true ∧
    Instr.wellFormed false (.addi (toks ["x0", "x31", "-2049"])) = true ∧
    Instr.wellFormed false (.lui (toks ["x31", "0xABCdef"])) = true := by decide

theorem test_wf_refuses_count :
    Instr.wellFormed false (.sub (toks ["x1", "x2"])) = false ∧
    Instr.wellFormed false (.ori (toks ["x1", "x2", "3", "4"])) = false ∧
    Instr.wellFormed false (.auipc (toks ["x1", "1", "2"])) = false := by decide

theorem test_wf_refuses_register :
    Instr.wellFormed false (.xor (toks ["x32", "x1", "x2"])) = false ∧
    Instr.wellFormed false (.xor (toks ["x1", "x05", "x2"])) = false ∧
    Instr.wellFormed false (.xor (toks ["x1", "x2", "zero"])) = false ∧
    Instr.wellFormed false (.slti (toks ["x1", "5", "x2"])) = false ∧
    Instr.wellFormed false (.lui (toks ["X5", "1"])) = false := by decide

theorem test_wf_refuses_immediate :
    Instr.wellFormed false (.andi (toks ["x1", "x2", "x3"])) = false ∧
    Instr.wellFormed false (.andi (toks ["x1", "x2", "0x10"])) = false ∧
    Instr.wellFormed true (.andi (toks ["x1", "x2", "0x10"])) = true ∧
    Instr.wellFormed true (.andi (toks ["x1", "x2", "0X10"])) = false ∧
    Instr.wellFormed false (.lui (toks ["x1", "0x"])) = false := by decide

/-! ## Reading words written out from the layouts (30_encoding.md R47, R61, R62, R63), one per constructor -/

theorem test_read_words_r :
    decodeTableWord 32 0b0000000_00011_00010_000_00001_0110011 = some (.add (toks ["x1", "x2", "x3"])) ∧
    decodeTableWord 32 0b0100000_00011_00010_000_00001_0110011 = some (.sub (toks ["x1", "x2", "x3"])) ∧
    decodeTableWord 32 0b0000000_00111_00110_111_00101_0110011 = some (.and (toks ["x5", "x6", "x7"])) ∧
    decodeTableWord 32 0b0000000_00111_00110_110_00101_0110011 = some (.or (toks ["x5", "x6", "x7"])) ∧
    decodeTableWord 32 0b0000000_00111_00110_100_00101_0110011 = some (.xor (toks ["x5", "x6", "x7"])) := by decide

theorem test_read_words_r_more :
    decodeTableWord 32 0b0000000_00111_00110_001_00101_0110011 = some (.sll (toks ["x5", "x6", "x7"])) ∧
    decodeTableWord 32 0b0000000_00111_00110_101_00101_0110011 = some (.srl (toks ["x5", "x6", "x7"])) ∧
    decodeTableWord 32 0b0100000_00111_00110_101_00101_0110011 = some (.sra (toks ["x5", "x6", "x7"])) ∧
    decodeTableWord 32 0b0000000_00111_00110_010_00101_0110011 = some (.stl (toks ["x5", "x6", "x7"])) ∧
    decodeTableWord 32 0b0000000_11110_00101_011_10001_0110011 = some (.stlu (toks ["x17", "x5", "x30"])) := by decide

theorem test_read_words_i :
    decodeTableWord 32 0b111111111111_00110_000_00101_0010011 = some (.addi (toks ["x5", "x6", "4095"])) ∧
    decodeTableWord 32 0b000011111111_00110_111_00101_0010011 = some (.andi (toks ["x5", "x6", "255"])) ∧
    decodeTableWord 32 0b000000000001_00110_110_00101_0010011 = some (.ori (toks ["x5", "x6", "1"])) ∧
    decodeTableWord 32 0b000000000000_00110_100_00101_0010011 = some (.xori (toks ["x5", "x6", "0"])) ∧
    decodeTableWord 32 0b100000000000_00110_010_00101_0010011 = some (.slti (toks ["x5", "x6", "2048"])) := by decide

/-- The word of `srai x5 x6 3` is read as `srli` (30_encoding.md R66). -/
theorem test_read_words_i_more :
    decodeTableWord 32 0b000000000001_00110_011_00101_0010011 = some (.sltiu (toks ["x5", "x6", "1"])) ∧
    decodeTableWord 32 0b000000000101_00110_001_00101_0010011 = some (.slli (toks ["x5", "x6", "5"])) ∧
    decodeTableWord 32 0b000000011111_00110_101_00101_0010011 = some (.srli (toks ["x5", "x6", "31"])) ∧
    decodeTableWord 32 0b000000000011_00110_101_00101_0010011 = some (.srli (toks ["x5", "x6", "3"])) := by decide

theorem test_read_words_u :
    decodeTableWord 32 0b00000000000000000001_00101_0110111 = some (.lui (toks ["x5", "1"])) ∧
    decodeTableWord 32 0b00000000000001100100_00001_0010111 = some (.auipc (toks ["x1", "100"])) := by decide

/-- Words outside the table: an unassigned funct7, an unassigned opcode, a `jal`, and bits beyond a word. -/
theorem test_read_words_refused :
    decodeTableWord 32 0b0000001_00011_00010_000_00001_0110011 = none ∧
    decodeTableWord 32 0b0100000_00011_00010_111_00001_0110011 = none ∧
    decodeTableWord 32 0x0000006F = none ∧ decodeTableWord 32 0 = none ∧
    decodeTableWord 64 0x00000033 = none := by decide

/-- The first step after reset runs the placed word's instruction. -/
theorem test_fetch_word :
    resultOfWord 0x003100B3 = gives 0x003100B3 ∧ resultOfWord 0xFFF30293 = gives 0xFFF30293 ∧
    resultOfWord 0x40335293 = gives 0x40335293 ∧ resultOfWord 0x12345537 = gives 0x12345537 ∧
    resultOfWord 0 = rejects .unknownMnemonic 0 := by decide

/-! ## The R-type mnemonics (95_test_vectors.md 3.3) -/

theorem test_add : resultOn false "add x1 x2 x3" = gives 0x003100B3 ∧
    resultOn false "add x17, x5, x30" = gives 0x01E288B3 := by decide
theorem test_sub : resultOn false "sub x1 x2 x3" = gives 0x403100B3 ∧
    resultOn false "sub x17, x5, x30" = gives 0x41E288B3 := by decide
theorem test_and : resultOn false "and x1 x2 x3" = gives 0x003170B3 ∧
    resultOn false "and x17, x5, x30" = gives 0x01E2F8B3 := by decide
theorem test_or : resultOn false "or x1 x2 x3" = gives 0x003160B3 ∧
    resultOn false "or x17, x5, x30" = gives 0x01E2E8B3 := by decide
theorem test_xor : resultOn false "xor x1 x2 x3" = gives 0x003140B3 ∧
    resultOn false "xor x17, x5, x30" = gives 0x01E2C8B3 := by decide
theorem test_sll : resultOn false "sll x1 x2 x3" = gives 0x003110B3 ∧
    resultOn false "sll x17, x5, x30" = gives 0x01E298B3 := by decide
theorem test_srl : resultOn false "srl x1 x2 x3" = gives 0x003150B3 ∧
    resultOn false "srl x17, x5, x30" = gives 0x01E2D8B3 := by decide
theorem test_sra : resultOn false "sra x1 x2 x3" = gives 0x403150B3 ∧
    resultOn false "sra x17, x5, x30" = gives 0x41E2D8B3 := by decide
theorem test_stl : resultOn false "stl x1 x2 x3" = gives 0x003120B3 ∧
    resultOn false "stl x31, x31, x31" = gives 0x01FFAFB3 := by decide
theorem test_stlu : resultOn false "stlu x8, x1, x2" = gives 0x0020B433 ∧
    resultOn false "stlu x0, x1, x2" = gives 0x0020B033 := by decide

/-! ## The I-type mnemonics (41_i_type.md R82-R90; 95_test_vectors.md 3.4, 3.7) -/

theorem test_addi : resultOn false "addi x1 x2 -2049" = gives 0x7FF10093 true ∧
    resultOn true "addi x1 x2 0x10" = gives 0x01010093 := by decide
theorem test_andi : resultOn false "andi x1 x2 4095" = gives 0xFFF17093 ∧
    resultOn true "andi x5, x6, 0xff" = gives 0x0FF37293 := by decide
theorem test_ori : resultOn false "ori x1 x2 4096" = gives 0x00016093 true ∧
    resultOn false "ori x5 x6 1" = gives 0x00136293 := by decide
theorem test_xori : resultOn false "xori x5 x6 -1" = gives 0xFFF34293 ∧
    resultOn false "xori x5, x4, 4096" = gives 0x00024293 true := by decide
theorem test_slti : resultOn false "slti x5 x6 -2048" = gives 0x80032293 ∧
    resultOn false "slti x1 x2 4096" = gives 0x00012093 true := by decide
theorem test_sltiu : resultOn false "sltiu x5 x6 4095" = gives 0xFFF33293 ∧
    resultOn false "sltiu x5, x6, 1" = gives 0x00133293 := by decide
theorem test_slli : resultOn false "slli x1 x2 32" = gives 0x02011093 ∧
    resultOn true "slli x5, x3, 0x4" = gives 0x00419293 := by decide
theorem test_srli : resultOn false "srli x5 x6 31" = gives 0x01F35293 ∧
    resultOn false "srli x5, x6, 1027" = gives 0x40335293 := by decide
theorem test_srai : resultOn false "srai x5 x6 3" = gives 0x00335293 ∧
    resultOn false "srai x5, x6, 1027" = gives 0x40335293 := by decide

/-! ## The U-type mnemonics (42_u_type.md R92, R93) -/

theorem test_lui : resultOn false "lui x5, 0x1" = gives 0x000012B7 ∧
    resultOn false "lui x3 0xABCdef" = gives 0xBCDEF1B7 true := by decide
theorem test_auipc : resultOn false "auipc x1, 100" = gives 0x00064097 ∧
    resultOn false "auipc x3 -524289" = gives 0x7FFFF197 true := by decide

/-! ## Immediates and registers (95_test_vectors.md 3.2, 3.5) -/

theorem test_numerals :
    resultOn false "lui x3, 010" = gives 0x0000A1B7 ∧
    resultOn false "lui x3, +7" = gives 0x000071B7 ∧
    resultOn false "lui x3, -0x1" = rejects .malformedImmediate 2 ∧
    resultOn false "lui x3, 0x0x1" = rejects .malformedImmediate 2 ∧
    resultOn false "lui x3, 1_0" = rejects .malformedImmediate 2 := by decide

theorem test_registers :
    resultOn false "add x19, x1, x2" = gives 0x002089B3 ∧
    resultOn false "add x31, x1, x2" = gives 0x00208FB3 ∧
    resultOn false "add x1, x2, x32" = rejects .invalidRegister 3 ∧
    resultOn false "addi x1, 5, x2" = rejects .invalidRegister 2 ∧
    resultOn false "lui 1, x3" = rejects .invalidRegister 1 := by decide

/-! ## The tokenizer and the errors (95_test_vectors.md 3.1, 3.6, 3.7) -/

theorem test_separators :
    resultOn false "  add\tx1 ,, x2 ,x3  " = gives 0x003100B3 ∧
    resultOn false "add\x0bx1\x0cx2\rx3" = gives 0x003100B3 ∧
    resultOn false "add,x1,x2,x3" = gives 0x003100B3 ∧
    resultOn false "add\u00A0x1 x2 x3" = rejects .unknownMnemonic 0 ∧
    resultOn false ",, \n" = [.blank] := by decide

theorem test_rejected_lines :
    resultOn false "foo x1, x2, x3" = rejects .unknownMnemonic 0 ∧
    resultOn false "ADD x1 x2 x3" = rejects .unknownMnemonic 0 ∧
    resultOn false "add x1 x2 x3 # comment" = rejects .operandCountMismatch 0 ∧
    resultOn false "add x1;x2;x3" = rejects .operandCountMismatch 0 ∧
    resultOn false "addi x1 x2 0x10" = rejects .malformedImmediate 3 := by decide

theorem test_priority :
    resultOn false "foo x99" = rejects .unknownMnemonic 0 ∧
    resultOn false "add x99, x1" = rejects .operandCountMismatch 0 ∧
    resultOn false "addi x99, x1, 0x5" = rejects .invalidRegister 1 ∧
    resultOn false "addi x1, x99, 0x5" = rejects .invalidRegister 2 ∧
    resultOn false "lui x99, 0xg" = rejects .invalidRegister 1 := by decide

/-! ## The output stream (95_test_vectors.md 1.3, 1.5; 30_encoding.md R65) -/

theorem test_output :
    outputOn false "lui x5, 0x1" = ["00000000000000000001001010110111"] ∧
    outputOn false "addi x5 x6 -1" = ["11111111111100110000001010010011"] ∧
    outputOn false "foo x1, x2, x3" = [] ∧ outputOn false "" = [] := by decide

/-! ## Witnesses: for every statement with hypotheses, a case that meets them all -/

/-- A decimal digit string given with its digits' values. -/
theorem decDigits_witness {ds : Text} {vs : List Nat} {n : Nat} (hne : vs ≠ [])
    (hf : List.Forall₂ (fun c d => "0123456789".toList[d]? = some c) ds vs)
    (hn : n = vs.foldl (fun a d => 10 * a + d) 0) : DigitString 10 IsDecDigit ds n := ⟨vs, hne, hf, hn⟩

/-- `x` is no decimal digit. -/
theorem x_no_digit (d : Nat) : ¬ IsDecDigit 'x' d := fun h =>
  absurd (List.mem_of_getElem? h) (by decide)

/-- Numerals at both ends of the I-type range and one past each end. -/
theorem witness_numerals_i :
    ImmediateNumeral false .I "4095".toList 4095 ∧ ImmediateNumeral false .I "4096".toList 4096 ∧
    ImmediateNumeral false .I "-2048".toList (-2048) ∧ ImmediateNumeral false .I "-2049".toList (-2049) :=
  ⟨.inl ⟨"4095".toList, 4095, decDigits_witness (vs := [4, 0, 9, 5]) (by decide) (by decide) rfl, .inl ⟨rfl, rfl⟩⟩,
   .inl ⟨"4096".toList, 4096, decDigits_witness (vs := [4, 0, 9, 6]) (by decide) (by decide) rfl, .inl ⟨rfl, rfl⟩⟩,
   .inl ⟨"2048".toList, 2048, decDigits_witness (vs := [2, 0, 4, 8]) (by decide) (by decide) rfl,
     .inr (.inr ⟨rfl, rfl⟩)⟩,
   .inl ⟨"2049".toList, 2049, decDigits_witness (vs := [2, 0, 4, 9]) (by decide) (by decide) rfl,
     .inr (.inr ⟨rfl, rfl⟩)⟩⟩

/-- A hexadecimal numeral of both cases at the top of the U-type range, and the same grammar for I-type under `true`. -/
theorem witness_numerals_hex :
    ImmediateNumeral false .U "0xFFfff".toList 1048575 ∧ ImmediateNumeral true .I "0xFFfff".toList 1048575 := by
  have h : HexNumeral "0xFFfff".toList 1048575 := by
    refine ⟨"FFfff".toList, 1048575, rfl, ⟨[15, 15, 15, 15, 15], by decide, ?_, rfl⟩, rfl⟩
    refine .cons (.inr rfl) (.cons (.inr rfl) (.cons (.inl rfl) (.cons (.inl rfl) (.cons (.inl rfl) .nil))))
  exact ⟨.inr ⟨.inl rfl, h⟩, .inr ⟨.inr rfl, h⟩⟩

/-- A token that is no numeral of any format. -/
theorem witness_no_numeral (hex : Bool) (fmt : Format) (v : Int) : ¬ ImmediateNumeral hex fmt "x3".toList v := by
  rintro (⟨ds, n, ⟨vs, -, hf, -⟩, h⟩ | ⟨-, ds, n, h, -⟩)
  · rcases h with ⟨h, -⟩ | ⟨h, -⟩ | ⟨h, -⟩
    · rw [← h] at hf
      cases hf with
      | cons h1 _ => exact x_no_digit _ h1
    · exact absurd (List.cons.inj h).1 (by decide)
    · exact absurd (List.cons.inj h).1 (by decide)
  · exact absurd (List.cons.inj h).1 (by decide)

/-- RTypeMnemonicsEncodeOrReject, UTypeMnemonicsEncodeOrReject, ITypeMnemonicsEncodeOrReject: operand counts on both
sides of the right one, and register tokens at the ends of the range (the numerals are above). -/
theorem witness_operands :
    (toks ["x1", "x2"]).length ≠ 3 ∧ (toks ["x1", "x2", "x3", "x4"]).length ≠ 3 ∧
    (toks ["x1"]).length ≠ 2 ∧ (toks ["x1", "1", "2"]).length ≠ 2 ∧
    "x0".toList ∈ regNames ∧ "x31".toList ∈ regNames ∧ "x32".toList ∉ regNames := by decide

/-- SraiWordIsStandardOnlyByItsImmediate: immediates at both ends of the range of its second clause. -/
theorem witness_srai :
    ImmediateNumeral false .I "1024".toList 1024 ∧ (1024 ≤ (1024 : Int) % 4096 ∧ (1024 : Int) % 4096 < 1056) ∧
    ImmediateNumeral false .I "1056".toList 1056 ∧ ¬ ((1056 : Int) % 4096 < 1056) :=
  ⟨.inl ⟨"1024".toList, 1024, decDigits_witness (vs := [1, 0, 2, 4]) (by decide) (by decide) rfl, .inl ⟨rfl, rfl⟩⟩,
   by decide,
   .inl ⟨"1056".toList, 1056, decDigits_witness (vs := [1, 0, 5, 6]) (by decide) (by decide) rfl, .inl ⟨rfl, rfl⟩⟩,
   by decide⟩

/-- NumeralsOfAnyLengthAreRead: a non-empty string of digits. -/
theorem witness_digits : (['0', '0', '7'] : Token) ≠ [] ∧ ∀ c ∈ (['0', '0', '7'] : Token), ∃ d, IsDecDigit c d := by
  refine ⟨by decide, fun c hc => ?_⟩
  rcases hc with _ | ⟨_, _ | ⟨_, _ | ⟨_, h⟩⟩⟩
  · exact ⟨0, rfl⟩
  · exact ⟨0, rfl⟩
  · exact ⟨7, rfl⟩
  · cases h

/-- MisreadHexNumeralsAreMalformed: both formats, and a token of every listed form. -/
theorem witness_misread :
    (descriptor .addi).format = .I ∧ (descriptor .lui).format = .U ∧ State.reset.uniformImmHex = false ∧
    ['0', 'x'] <+: "0x10".toList ∧ ['0', 'X'] <+: "0X10".toList ∧ ['-', '0', 'x'] <+: "-0x5".toList ∧
    ['+', '0', 'x'] <+: "+0x1".toList ∧ ['0', 'x', '-'] <+: "0x-5".toList ∧ ['0', 'x', '+'] <+: "0x+5".toList := by
  decide

/-- MaskIsRemainderAndTwosComplementAnd and OverflowMeansNotReadBack: widths that meet the bounds, at the bounds. -/
theorem witness_widths : (12 : Nat) ≤ 12 ∧ (0 : Nat) < 1 := by decide

/-- OverflowNeverReplacesTheWord and DecodeOfEncodeIsTheInstruction: a well-formed instruction whose immediate
overflows. -/
theorem witness_well_formed :
    Instr.wellFormed false (.srai (toks ["x0", "x31", "4096"])) = true ∧ ovf 12 4096 = true := by decide

/-- OtherRegisterSpellingsAreInvalid: the last register position of each format, with what the position asks for. -/
theorem witness_other_registers :
    "x05".toList ∈ otherRegisterSpellings ∧ (∀ u ∈ toks ["x0", "x31"], u ∈ regNames) ∧
    registerCount (descriptor .stlu).format = (toks ["x0", "x31"]).length + 1 ∧
    (toks ["x0", "x31"]).length + 1 + 0 = (descriptor .stlu).format.operandCount ∧
    registerCount (descriptor .addi).format = (toks ["x0"]).length + 1 ∧
    (toks ["x0"]).length + 1 + (toks ["0x"]).length = (descriptor .addi).format.operandCount ∧
    registerCount (descriptor .lui).format = 0 + 1 ∧
    0 + 1 + (toks ["0x"]).length = (descriptor .lui).format.operandCount := by decide

/-- TokensAreTheMaximalRuns and SpacingDoesNotMatter: separators, a token free of them, and parts that meet all
conditions together. -/
theorem witness_tokens :
    isSeparator ',' = true ∧ isSeparator '\r' = true ∧ (['x', '1'] : Token) ≠ [] ∧
    (∀ c ∈ (['x', '1'] : Token), isSeparator c = false) ∧
    (∀ p ∈ [([], ['a', 'd', 'd']), ([',', ' '], ['x', '1'])], Separators p.1 ∧ p.2 ≠ [] ∧
      ∀ c ∈ p.2, isSeparator c = false) ∧
    (∀ p ∈ [(([',', ' '] : Text), ['x', '1'])], p.1 ≠ []) ∧ Separators ['\t'] := by
  simp [Separators, isSeparator, isWhitespace]

/-- ListedOtherSpellingsAreUnknown: lines whose first token is a listed spelling, one of them with separators in front. -/
theorem witness_listed :
    "slt".toList ∈ otherMnemonicSpellings ∧ tokens ", slt x1".toList = "slt".toList :: toks ["x1"] ∧
    "loop:".toList ∈ otherMnemonicSpellings ∧ resultOn false "loop:" = rejects .unknownMnemonic 0 := by decide

/-- FirstFaultInOrderIsReported: lines that meet the conditions of its clauses. -/
theorem witness_priority :
    tokens [] = [] ∧ tokens "foo x99".toList = toks ["foo", "x99"] ∧
    "foo".toList ∉ Mnemonic.all.map Mnemonic.key ∧
    tokens "lui x99, 0xg".toList = Mnemonic.lui.key :: toks ["x99", "0xg"] ∧ (descriptor .lui).format = .U ∧
    "x99".toList ∉ regNames ∧ isImmediate false .U "0xg".toList = false ∧
    tokens "addi x1 x2 0x5".toList = Mnemonic.addi.key :: toks ["x1", "x2", "0x5"] ∧
    (descriptor .addi).format = .I ∧ (descriptor .add).format = .R ∧
    isImmediate false .I "0x5".toList = false := by decide

/-- A run that meets an unknown mnemonic next, with one line behind it. -/
def errorRun : State := State.start false ["foo x1".toList, "add x1 x2 x3".toList]

/-- ErrorChangesNothingElse: a step that records an error. -/
theorem witness_error :
    errorRun.pending ≠ [] ∧
    step errorRun = .next { errorRun with pending := ["add x1 x2 x3".toList], results := [.err .unknownMnemonic 0] } ∧
    [Result.err .unknownMnemonic 0] = errorRun.results ++ [.err .unknownMnemonic 0] := ⟨by decide, rfl, rfl⟩

/-- ErrorCodes and UndrivenCodesFaultAndNeverAppear: ports that show a code that is never driven, of every sort, and
ports that a result of a step drives. -/
theorem witness_ports :
    (⟨0b11, 0, false, 0, 0⟩ : PortBits).resKind = 0b11 ∧
    ((⟨0b10, 0, false, 0b101, 0⟩ : PortBits).resKind = 0b10 ∧ (⟨0b10, 0, false, 0b101, 0⟩ : PortBits).errCode = 0b101) ∧
    resultOn false "foo x1" = [.err .unknownMnemonic 0] ∧
    drives (.err .unknownMnemonic 0) ⟨0b10, 0xFFFFFFFF, true, 0b001, 0b00⟩ = true := by decide

/-- OperandsStandWhereTheLayoutsSay and EveryInstructionsFrame: an OK result of each format, and a next state. -/
theorem witness_ok_results :
    Instr.result false (.sub (toks ["x0", "x31", "x7"])) = .ok 0x407F8033 false ∧
    Instr.result false (.addi (toks ["x1", "x2", "-2049"])) = .ok 0x7FF10093 true ∧
    Instr.result false (.lui (toks ["x5", "0x1"])) = .ok 0x000012B7 false ∧
    ∃ t, exec (.sub (toks ["x0", "x31", "x7"])) State.reset = .next t := ⟨by decide, by decide, by decide, _, rfl⟩

/-- EncodeOfDecodeIsTheWord, StepOnTheLineOfAWordGivesTheWord, FetchedWordRunsItsInstruction: a word that is read. -/
theorem witness_read :
    decodeWord 0xFFFFFFB7 = some (.lui (toks ["x31", "1048575"])) ∧
    decodeTableWord 32 0xFFFFFFB7 = some (.lui (toks ["x31", "1048575"])) := by decide

/-- OnlySrliAndSraiShareWords and DecodeOfEncodeIsIdentity: two instructions of one word, and a mnemonic that is not
`srai`. -/
theorem witness_shared_word :
    encode false (.srli (toks ["x5", "x6", "1027"])) = some 0x40335293 ∧
    encode true (.srai (toks ["x5", "x6", "0x403"])) = some 0x40335293 ∧ Mnemonic.addi ≠ Mnemonic.srai := by decide

/-- StepRunsTheDecodedInstruction and the statements about a step with a next line: a state with a line, and a line of
each sort. -/
theorem witness_lines :
    (State.start true ["add x1 x2 x3".toList]).pending = "add x1 x2 x3".toList :: [] ∧
    decodeLine "add x1 x2 x3".toList = .instr (.add (toks ["x1", "x2", "x3"])) ∧
    decodeLine ",, ".toList = .blank ∧ decodeLine "ADD x1".toList = .unknown := by decide

/-- StepWithNoLineIsIdle, ParameterNeverChanges, EveryStepKeepsTheInvariant: reset has no line, meets the invariant, and
both a step and a run answer from it. -/
theorem witness_reset :
    State.reset.pending = [] ∧ State.reset.Inv ∧ step State.reset = .next State.reset ∧
    Host.Core.run Sys2Proof.core 2 State.reset = .next State.reset := by
  refine ⟨rfl, ⟨rfl, ?_⟩, rfl, rfl⟩
  intro r hr
  cases hr

/-- EveryStepKeepsTheInvariant: a state with a result that meets the invariant, and a step of it that records one. -/
theorem witness_invariant :
    let s : State := { State.start false ["foo".toList] with
      results := [.ok 0x00208033 false], outputStream := [render 0x00208033] }
    s.Inv ∧ ∃ t, step s = .next t ∧ t.results ≠ s.results := by
  refine ⟨⟨by decide, ?_⟩, _, rfl, by decide⟩
  intro r hr
  cases hr with
  | head => decide
  | tail _ h => cases h

/-- ParameterMattersOnlyForHexITypeImmediates: a line whose results differ. -/
theorem witness_parameter :
    encodeLine true "addi x1, x2, 0x10".toList ≠ encodeLine false "addi x1, x2, 0x10".toList := by decide

/-- ResultDependsOnlyOnLineAndParameter: two states with different pasts and futures that agree in line and parameter. -/
theorem witness_two_states :
    let s1 : State := State.start true ["add".toList]
    let s2 : State := { s1 with pending := ["add".toList, "lui".toList], results := [.blank] }
    s1.uniformImmHex = s2.uniformImmHex ∧ s1.pending = "add".toList :: [] ∧
    s2.pending = "add".toList :: ["lui".toList] ∧ s1 ≠ s2 := by decide

/-- ResequencingRestoresInputOrder: results of three lines that came in another order. -/
theorem witness_resequence :
    let lines := ["add".toList, [], "add x1 x2 x3".toList]
    let done := [(2, Result.ok 0x003100B3 false), (0, .err .operandCountMismatch 0), (1, .blank)]
    done.Perm ((numberLines 0 lines).map (evaluateJob false)) ∧
    resequence done = [.err .operandCountMismatch 0, .blank, .ok 0x003100B3 false] := by
  decide

/-- ErrorFreeRunsWriteALinePerLineWithTokens: a run without errors that has a blank line and an overflow. -/
theorem witness_error_free :
    ∃ t : State, Host.Core.run Sys2Proof.core 2 (State.start false [[], "ori x1 x2 4096".toList]) = .next t ∧
      t.ErrorFree ∧ t.results = [.blank, .ok 0x00016093 true] := by
  have h : ({ State.start false [] with
      results := [.blank, .ok 0x00016093 true], outputStream := [render 0x00016093] } : State).ErrorFree := by
    intro kind pos hr
    simp at hr
  exact ⟨_, rfl, h, rfl⟩

end Sys2Proof.Tests
end

namespace Sys2Proof.Proofs

open Sys2Proof.Machine Sys2Proof.Statements

/-! ## What `exec` does, said once -/

/-- Every arm of `exec` is one of the three format encoders with the fixed fields of its mnemonic's table row, so the
encoder's own law is the arm's. -/
theorem exec_eq_next_record (i : Instr) (s : State) :
    exec i s = .next (s.record (i.result s.uniformImmHex)) := by
  rw [result_eq_resultOf]
  cases i with
  | add ops | sub ops | and ops | or ops | xor ops | sll ops | srl ops | sra ops | stl ops | stlu ops =>
    exact encR_spec _ _ _ ops s
  | addi ops | andi ops | ori ops | xori ops | slti ops | sltiu ops | slli ops | srli ops | srai ops =>
    exact encI_spec _ _ ops s
  | lui ops | auipc ops => exact encU_spec _ ops s

/-- BLANK is the result of a line without tokens only (30_encoding.md R44), never of an instruction. -/
theorem result_ne_blank (hex : Bool) (i : Instr) : i.result hex ≠ .blank := by
  rw [result_eq_resultOf]
  cases encodeOps hex (descriptor i.mnemonic) i.ops with
  | ok _ => exact nofun
  | error _ => exact nofun

/-- The statements' own account of the output agrees with the model's. -/
theorem emit_eq_written (r : Result) : emit r = written r := by cases r <;> rfl

/-- Settles O46: an answer of `exec` is the state with the instruction's result recorded. -/
theorem everyInstructionsFrame : Obligations.EveryInstructionsFrame := by
  intro i s t h
  rw [exec_eq_next_record] at h
  obtain rfl := Host.Outcome.next.inj h
  refine ⟨record_uniformImmHex _ _, record_pending _ _, i.result s.uniformImmHex, result_ne_blank _ _,
    record_results _ _, ?_⟩
  rw [record_outputStream, emit_eq_written]

end Sys2Proof.Proofs

namespace Sys2Proof.Proofs

open Sys2Proof.Machine Sys2Proof.Statements

/-! ## What `step` does, said once -/

/-- A run with no line left stands still (70_reset_and_hazards.md R119). -/
theorem step_of_pending_nil {s : State} (h : s.pending = []) : step s = .next s := by
  simp [step, takeLine_nil s h, idle]

/-- A step takes the next line and records `Encode` of it (30_encoding.md R39, 20_memory.md R30). -/
theorem step_of_pending_cons {s : State} {line : Line} {rest : List Line} (h : s.pending = line :: rest) :
    step s = .next (State.record { s with pending := rest } (encodeLine s.uniformImmHex line)) := by
  simp only [step, takeLine_cons s line rest h, encodeLine]
  cases decodeLine line with
  | blank => rfl
  | unknown => rfl
  | instr i => exact exec_eq_next_record i _

/-- Every step answers a next state (60_exceptions.md R109), under the same parameter (70_reset_and_hazards.md R113). -/
theorem step_answers_under_same_parameter (s : State) :
    ∃ t, step s = .next t ∧ t.uniformImmHex = s.uniformImmHex := by
  cases h : s.pending with
  | nil => exact ⟨s, step_of_pending_nil h, rfl⟩
  | cons line rest => exact ⟨_, step_of_pending_cons h, record_uniformImmHex _ _⟩

/-- What every step keeps, every run keeps. -/
theorem run_keeps {P : State → Prop} (hstep : ∀ s t, P s → step s = .next t → P t) {n : Nat} {s t : State}
    (hs : P s) (hrun : Host.Core.run Sys2Proof.core n s = .next t) : P t := by
  induction n generalizing s with
  | zero =>
    obtain rfl := Host.Outcome.next.inj hrun
    exact hs
  | succ n ih =>
    obtain ⟨u, hu, -⟩ := step_answers_under_same_parameter s
    rw [run_succ n s u hu] at hrun
    exact ih (hstep s u hs hu) hrun

/-- Settles O49: a step keeps the parameter, so a run does. -/
theorem parameterNeverChanges : Obligations.ParameterNeverChanges := by
  intro n s t hrun
  refine run_keeps (P := fun u => u.uniformImmHex = s.uniformImmHex) ?_ rfl hrun
  intro u v hu hstep
  obtain ⟨w, hw, hparam⟩ := step_answers_under_same_parameter u
  obtain rfl : w = v := Host.Outcome.next.inj (hw.symm.trans hstep)
  exact hparam.trans hu

/-! ## The state after reset -/

/-- Settles O51: the fields of the state after reset. -/
theorem resetLeaves : Obligations.ResetLeaves :=
  ⟨reset_uniformImmHex, reset_pending, reset_results, reset_outputStream⟩

/-- Settles O55: with no result there is nothing to emit and nothing to allow. -/
theorem resetMeetsTheInvariant : Obligations.ResetMeetsTheInvariant := by
  constructor
  · rw [reset_outputStream, reset_results, emitAll, List.flatMap_nil]
  · rw [reset_results]
    exact List.forall_mem_nil _

/-! ## The register-name table -/

/-- The table holds the name of each index at that index (10_state.md R17). -/
theorem regNames_getElem? (r : Reg) : regNames[r.toNat]? = some (regName r.toNat) := by
  rw [regNames, List.getElem?_map, List.getElem?_range r.isLt, Option.map_some]

/-- None of the spellings 30_encoding.md R53 rejects by name is in the table. -/
theorem otherRegisterSpellings_not_mem_regNames : ∀ t ∈ otherRegisterSpellings, t ∉ regNames := by decide

/-- Settles O11: the register decoder is the inverse of the table's indexing. -/
theorem regDecodeAcceptsExactly32Names : Obligations.RegDecodeAcceptsExactly32Names := by
  refine ⟨by decide, fun t r => ?_, fun t => regDecode_eq_none,
    fun t ht => regDecode_eq_none.2 (otherRegisterSpellings_not_mem_regNames t ht)⟩
  rw [regDecode_eq_some, regNames_getElem?, Option.some_inj, eq_comm]

end Sys2Proof.Proofs

namespace Sys2Proof.Proofs

open Sys2Proof.Machine

/-! ## The results the spec allows -/

/-- Every error of an operand decoder or encoder stands at a position its kind is reported at (60_exceptions.md R94). -/
def ErrorsPlaced {α : Type} (x : Except (ErrKind × Pos) α) : Prop :=
  ∀ kind pos, x = .error (kind, pos) → pos ∈ kind.positions

theorem errorsPlaced_ok {α : Type} (a : α) : ErrorsPlaced (.ok a) := nofun

theorem errorsPlaced_error {α : Type} {kind : ErrKind} {pos : Pos} (h : pos ∈ kind.positions) :
    ErrorsPlaced (.error (kind, pos) : Except (ErrKind × Pos) α) := by
  rintro _ _ ⟨⟩
  exact h

theorem errorsPlaced_bind {α β : Type} {x : Except (ErrKind × Pos) α} {f : α → Except (ErrKind × Pos) β}
    (hx : ErrorsPlaced x) (hf : ∀ a, ErrorsPlaced (f a)) : ErrorsPlaced (x >>= f) := by
  cases x with
  | ok a => exact hf a
  | error e => exact errorsPlaced_error (hx e.1 e.2 rfl)

theorem errorsPlaced_regOperand (t : Token) {pos : Pos} (h : pos ∈ ErrKind.invalidRegister.positions) :
    ErrorsPlaced (regOperand t pos) := by
  unfold regOperand
  split
  · exact errorsPlaced_ok _
  · exact errorsPlaced_error h

theorem errorsPlaced_immOperand (hex : Bool) (fmt : Format) (t : Token) {pos : Pos}
    (h : pos ∈ ErrKind.malformedImmediate.positions) : ErrorsPlaced (immOperand hex fmt t pos) := by
  unfold immOperand
  split
  · exact errorsPlaced_ok _
  · exact errorsPlaced_error h

theorem errorsPlaced_encodeOps (hex : Bool) (d : Descriptor) (ops : List Token) :
    ErrorsPlaced (encodeOps hex d ops) := by
  unfold encodeOps
  split
  · exact errorsPlaced_bind (errorsPlaced_regOperand _ (by decide)) fun _ =>
      errorsPlaced_bind (errorsPlaced_regOperand _ (by decide)) fun _ =>
      errorsPlaced_bind (errorsPlaced_regOperand _ (by decide)) fun _ => errorsPlaced_ok _
  · exact errorsPlaced_bind (errorsPlaced_regOperand _ (by decide)) fun _ =>
      errorsPlaced_bind (errorsPlaced_regOperand _ (by decide)) fun _ =>
      errorsPlaced_bind (errorsPlaced_immOperand _ _ _ (by decide)) fun _ => errorsPlaced_ok _
  · exact errorsPlaced_bind (errorsPlaced_regOperand _ (by decide)) fun _ =>
      errorsPlaced_bind (errorsPlaced_immOperand _ _ _ (by decide)) fun _ => errorsPlaced_ok _
  · exact errorsPlaced_error (by decide)

/-- The word of an instruction is of a table pattern (30_encoding.md R66). -/
theorem ofTable_of_encodeOps_eq_ok {hex : Bool} {i : Instr} {w : Word} {o : Bool}
    (h : encodeOps hex (descriptor i.mnemonic) i.ops = .ok (w, o)) : ofTable w = true := by
  have hmem : i.mnemonic ∈ mnemonicsOf w := Laws.tablePattern_of i hex w (encode_eq_some.2 ⟨o, h⟩)
  obtain ⟨row, hrow, -⟩ := List.mem_map.1 hmem
  exact List.any_eq_true.2 ⟨row, List.mem_filter.1 hrow⟩

/-- The opcode field of an encoded word is the descriptor's (30_encoding.md R61-R63). -/
theorem opcodeField_of_encodeOps_eq_ok {hex : Bool} {d : Descriptor} {ops : List Token} {w : Word} {o : Bool}
    (h : encodeOps hex d ops = .ok (w, o)) : opcodeField w = d.opcode := by
  rw [encodeOps_eq_ok] at h
  cases d with
  | r _ _ _ =>
    obtain ⟨rd, rs1, rs2, -, rfl, -⟩ := h
    exact opcodeField_packR ..
  | i _ _ =>
    obtain ⟨rd, rs1, t, v, -, -, rfl, -⟩ := h
    exact opcodeField_packI ..
  | u _ =>
    obtain ⟨rd, t, v, -, -, rfl, -⟩ := h
    exact opcodeField_packU ..

/-- In the table the opcode 0110011 is that of the R-type rows alone (30_encoding.md R47). -/
theorem format_eq_R_of_opcode {m : Mnemonic} (h : (descriptor m).opcode = 0b0110011) : (descriptor m).format = .R := by
  revert h
  cases m <;> decide

/-- An R-type encoding has no immediate to overflow (30_encoding.md R60). -/
theorem overflow_false_of_format_R {hex : Bool} {d : Descriptor} {ops : List Token} {w : Word} {o : Bool}
    (hd : d.format = .R) (h : encodeOps hex d ops = .ok (w, o)) : o = false := by
  cases d with
  | r _ _ _ =>
    obtain ⟨_, _, _, -, -, ho⟩ := encodeOps_eq_ok.1 h
    exact ho
  | i _ _ => cases hd
  | u _ => cases hd

/-- An instruction's result is one the spec allows. -/
theorem result_allowed (hex : Bool) (i : Instr) : (i.result hex).allowed = true := by
  rw [result_eq_resultOf]
  cases h : encodeOps hex (descriptor i.mnemonic) i.ops with
  | ok wo =>
    obtain ⟨w, o⟩ := wo
    have hovf : opcodeField w = 0b0110011 → o = false := fun hop =>
      overflow_false_of_format_R (format_eq_R_of_opcode ((opcodeField_of_encodeOps_eq_ok h).symm.trans hop)) h
    simpa [resultOf, Result.allowed, ofTable_of_encodeOps_eq_ok h, imp_iff_not_or] using hovf
  | error e =>
    exact List.contains_iff_mem.2 (errorsPlaced_encodeOps hex _ _ e.1 e.2 h)

/-- `Encode` gives a result the spec allows on every line. -/
theorem encodeLine_allowed (hex : Bool) (line : Line) : (encodeLine hex line).allowed = true := by
  unfold encodeLine
  cases decodeLine line with
  | blank => rfl
  | unknown => rfl
  | instr i => exact result_allowed hex i

/-! ## The invariant of a run -/

/-- Recording a result the spec allows keeps the invariant: the host emits for it what `emitAll` gives for it. -/
theorem record_keeps_inv {s : State} {r : Result} (hs : s.Inv) (hr : r.allowed = true) : (s.record r).Inv := by
  obtain ⟨hout, hallowed⟩ := hs
  constructor
  · rw [record_outputStream, record_results, emitAll_append, hout]
  · rw [record_results, List.forall_mem_append]
    exact ⟨hallowed, List.forall_mem_singleton.2 hr⟩

/-- Settles O54: a step either leaves the state as it is or takes a line, which the invariant does not speak of, and
records a result that is allowed. -/
theorem everyStepKeepsTheInvariant : Obligations.EveryStepKeepsTheInvariant := by
  intro s t hs hstep
  cases hp : s.pending with
  | nil =>
    obtain rfl := Host.Outcome.next.inj ((step_of_pending_nil hp).symm.trans hstep)
    exact hs
  | cons line rest =>
    obtain rfl := Host.Outcome.next.inj ((step_of_pending_cons hp).symm.trans hstep)
    exact record_keeps_inv (s := { s with pending := rest }) hs (encodeLine_allowed _ _)

end Sys2Proof.Proofs

namespace Sys2Proof.Proofs

open Sys2Proof.Machine Sys2Proof.Statements

/-! ## The bytes of a stored word -/

/-- The four bytes of a word, most significant first, are the word. -/
theorem append_bytes (w : Word) :
    (w.extractLsb' 24 8 ++ w.extractLsb' 16 8 ++ w.extractLsb' 8 8 ++ w.extractLsb' 0 8 : BitVec 32) = w := by
  apply BitVec.eq_of_getLsbD_eq
  intro i hi
  simp only [BitVec.getLsbD_append, BitVec.getLsbD_extractLsb']
  grind

/-- Settles O34: the bytes of either order are the word's four bytes. -/
theorem storedBytesGiveTheWordBack : Obligations.StoredBytesGiveTheWordBack :=
  fun w => ⟨⟨_, _, _, _, rfl, append_bytes w⟩, rfl⟩

/-! ## One result per line -/

/-- The statements' own account of a recorded result agrees with the model's. -/
theorem record_eq_after (s : State) (r : Result) : s.record r = after s r (written r) := by
  rw [State.record, after, emit_eq_written]

/-- Settles O47: a step with a line records `Encode` of it. -/
theorem everyStepAnswersWithOneResult : Obligations.EveryStepAnswersWithOneResult := by
  constructor
  · intro s
    obtain ⟨t, ht, -⟩ := step_answers_under_same_parameter s
    exact ⟨t, ht⟩
  · intro s line rest hp
    exact ⟨encodeLine s.uniformImmHex line, by rw [step_of_pending_cons hp, record_eq_after]⟩

end Sys2Proof.Proofs

namespace Sys2Proof.Proofs

open Sys2Proof.Machine

/-! ## Re-sequencing -/

/-- The host's insertion is the library's ordered insertion, by line number. -/
theorem insertByNumber_eq_orderedInsert (x : Nat × Result) (l : List (Nat × Result)) :
    insertByNumber x l = l.orderedInsert (Order.Preimage Prod.fst (· ≤ ·)) x := by
  induction l with
  | nil => rfl
  | cons y ys ih => rw [insertByNumber, ih, List.orderedInsert_cons]; rfl

/-- The host's re-sequencing is the library's insertion sort, by line number. -/
theorem resequence_eq_insertionSort (done : List (Nat × Result)) :
    resequence done = (done.insertionSort (Order.Preimage Prod.fst (· ≤ ·))).map Prod.snd := by
  rw [resequence, List.insertionSort, ← funext₂ insertByNumber_eq_orderedInsert]

/-- Re-sequencing a permutation of results with distinct, rising numbers gives them in that order. -/
theorem resequence_of_perm {done l : List (Nat × Result)} (hperm : done.Perm l)
    (hl : (l.map Prod.fst).Pairwise (· < ·)) : resequence done = l.map Prod.snd := by
  rw [resequence_eq_insertionSort]
  congr 1
  have hsort := done.perm_insertionSort (Order.Preimage Prod.fst (· ≤ ·))
  have hinj := List.inj_on_of_nodup_map hl.nodup
  refine List.Perm.eq_of_pairwise (fun a b ha hb hab hba => ?_) (List.pairwise_insertionSort _ done)
    ((List.pairwise_map.1 hl).imp Nat.le_of_lt) (hsort.trans hperm)
  exact hinj ((hsort.trans hperm).mem_iff.1 ha) hb (Nat.le_antisymm hab hba)

/-- Evaluating a numbered line keeps its number. -/
theorem map_fst_evaluateJob_numberLines (hex : Bool) (n : Nat) (lines : List Line) :
    ((numberLines n lines).map (evaluateJob hex)).map Prod.fst = List.range' n lines.length := by
  induction lines generalizing n with
  | nil => rfl
  | cons line rest ih =>
    rw [numberLines, List.map_cons, List.map_cons, ih, List.length_cons, List.range'_succ, evaluateJob]

/-- Evaluating the numbered lines gives the results of the lines, in input order. -/
theorem map_snd_evaluateJob_numberLines (hex : Bool) (n : Nat) (lines : List Line) :
    ((numberLines n lines).map (evaluateJob hex)).map Prod.snd = lines.map (encodeLine hex) := by
  induction lines generalizing n with
  | nil => rfl
  | cons line rest ih => rw [numberLines, List.map_cons, List.map_cons, ih, List.map_cons, evaluateJob]

/-- Settles O56: the numbers of the lines rise, so re-sequencing has one order to restore. -/
theorem resequencingRestoresInputOrder : Obligations.ResequencingRestoresInputOrder := by
  intro hex lines done hperm
  rw [resequence_of_perm hperm, map_snd_evaluateJob_numberLines]
  rw [map_fst_evaluateJob_numberLines]
  exact List.pairwise_lt_range'

end Sys2Proof.Proofs

namespace Sys2Proof.Proofs

open Sys2Proof.Machine

/-! ## A whole run -/

/-- A run over all its pending lines records `Encode` of each, in input order (70_reset_and_hazards.md R119). -/
theorem run_all_pending (s : State) :
    Host.Core.run Sys2Proof.core s.pending.length s = .next
      { uniformImmHex := s.uniformImmHex, pending := [],
        results := s.results ++ s.pending.map (encodeLine s.uniformImmHex),
        outputStream := s.outputStream ++ emitAll (s.pending.map (encodeLine s.uniformImmHex)) } := by
  generalize hp : s.pending = lines
  induction lines generalizing s with
  | nil =>
    obtain ⟨hex, pending, results, outputStream⟩ := s
    obtain rfl : pending = [] := hp
    simp [emitAll, Host.Core.run]
  | cons line rest ih =>
    rw [List.length_cons, run_succ _ _ _ (step_of_pending_cons hp), ih _ rfl]
    simp [emitAll]

/-- A line gives BLANK exactly when it has no tokens (30_encoding.md R44). -/
theorem encodeLine_eq_blank {hex : Bool} {line : Line} : encodeLine hex line = .blank ↔ tokens line = [] := by
  unfold encodeLine decodeLine
  cases tokens line with
  | nil => simp
  | cons m ops =>
    cases hl : lookup m with
    | none => simp [hl]
    | some k => simp [hl, result_ne_blank]

/-- Without errors among the results, the host writes a line for each that is not BLANK (20_memory.md R32). -/
theorem length_emitAll {rs : List Result} (h : ∀ kind pos, Result.err kind pos ∉ rs) :
    (emitAll rs).length = (rs.filter (· ≠ .blank)).length := by
  induction rs with
  | nil => rfl
  | cons r rs ih =>
    have hrest := ih fun kind pos hmem => h kind pos (List.mem_cons_of_mem _ hmem)
    cases r with
    | ok w o => simpa [emitAll, emit] using hrest
    | blank => simpa [emitAll, emit] using hrest
    | err kind pos => exact absurd List.mem_cons_self (h kind pos)

/-- Every line the host writes is the rendering of a word, of 32 characters (30_encoding.md R65). -/
theorem length_of_mem_emitAll {rs : List Result} {out : Text} (h : out ∈ emitAll rs) : out.length = 32 := by
  obtain ⟨r, -, hout⟩ := List.mem_flatMap.1 h
  cases r with
  | ok w o => rw [List.mem_singleton.1 hout, render_length]
  | blank => cases hout
  | err kind pos => cases hout

/-- Settles O58: the run's results are those of its lines, and only a line without tokens gives BLANK. -/
theorem errorFreeRunsWriteALinePerLineWithTokens : Obligations.ErrorFreeRunsWriteALinePerLineWithTokens := by
  intro hex lines t hrun hfree
  obtain rfl := Host.Outcome.next.inj ((run_all_pending (State.start hex lines)).symm.trans hrun)
  refine ⟨?_, fun out hout => length_of_mem_emitAll hout⟩
  calc (emitAll (lines.map (encodeLine hex))).length
      = ((lines.map (encodeLine hex)).filter (· ≠ .blank)).length := length_emitAll hfree
    _ = (lines.filter fun line => tokens line ≠ []).length := by
      simp only [List.filter_map, List.length_map, Function.comp_def, ne_eq, encodeLine_eq_blank]

end Sys2Proof.Proofs

namespace Sys2Proof.Proofs

open Sys2Proof.Machine Sys2Proof.Statements

/-! ## The result of a line -/

/-- A step on a line gives exactly what `Encode` gives for it (30_encoding.md R39). -/
theorem gives_iff {hex : Bool} {line : Line} {r : Result} : Gives hex line r ↔ encodeLine hex line = r := by
  constructor
  · intro h
    have hstep := h (State.start hex [line]) [] rfl rfl
    rw [step_of_pending_cons (s := State.start hex [line]) rfl] at hstep
    simpa [after, State.start] using congrArg State.results (Host.Outcome.next.inj hstep)
  · rintro rfl s rest rfl hpending
    rw [step_of_pending_cons hpending, record_eq_after]

/-- Settles O44: a step records `Encode` of the line it takes. -/
theorem stepEvaluatesEncode : Obligations.StepEvaluatesEncode := fun _ _ => gives_iff.2 rfl

/-- Settles O45: every arm of `exec` records the table-driven result. -/
theorem meaningsAgreeWithTheTable : Obligations.MeaningsAgreeWithTheTable := fun i s => by
  rw [exec_eq_next_record, record_eq_after]

/-- Settles O41: each kind of decoded line, once the line is taken. -/
theorem stepRunsTheDecodedInstruction : Obligations.StepRunsTheDecodedInstruction := by
  intro s line rest hpending
  have htake := takeLine_cons s line rest hpending
  refine ⟨fun i hline => ?_, fun hline => ?_, fun hline => ?_⟩
  · simp only [step, htake, hline]
  · simp only [step, htake, hline, returnBlank, record_eq_after, written]
  · simp only [step, htake, hline, raise, record_eq_after, written]

end Sys2Proof.Proofs

namespace Sys2Proof.Proofs

open Sys2Proof.Machine Sys2Proof.Laws

/-! ## The fixed fields of a word, and the reader -/

/-- The format an opcode of the table belongs to (30_encoding.md R47). -/
def formatOfOpcode (opcode : BitVec 7) : Format :=
  if opcode = 0b0110011 then .R else if opcode = 0b0010011 then .I else .U

/-- The fixed fields a word has where a format places them (30_encoding.md R61-R63). -/
def fixedFields (w : Word) : Format → Descriptor
  | .R => .r (opcodeField w) (funct3Field w) (funct7Field w)
  | .I => .i (opcodeField w) (funct3Field w)
  | .U => .u (opcodeField w)

/-- The descriptor that a word shows: its fixed fields in the format of its opcode. -/
def shownDescriptor (w : Word) : Descriptor := fixedFields w (formatOfOpcode (opcodeField w))

theorem fixedFields_opcode (w : Word) (fmt : Format) : (fixedFields w fmt).opcode = opcodeField w := by
  cases fmt <;> rfl

theorem formatOfOpcode_descriptor (m : Mnemonic) :
    formatOfOpcode (descriptor m).opcode = (descriptor m).format := by
  cases m <;> rfl

/-- A word has a descriptor's bits under the mask of its format exactly when its fixed fields are the descriptor's. -/
theorem and_maskOf_eq_patternOf (w : Word) (d : Descriptor) :
    w &&& maskOf d = patternOf d ↔ fixedFields w d.format = d := by
  cases d with
  | r opcode funct3 funct7 =>
    simp only [maskOf, patternOf, and_maskR, Descriptor.format, fixedFields, Descriptor.r.injEq]
    constructor
    · intro h
      exact ⟨by simpa only [opcodeField_packR] using congrArg opcodeField h,
        by simpa only [funct3Field_packR] using congrArg funct3Field h,
        by simpa only [funct7Field_packR] using congrArg funct7Field h⟩
    · rintro ⟨h1, h2, h3⟩
      rw [h1, h2, h3]
  | i opcode funct3 =>
    simp only [maskOf, patternOf, and_maskI, Descriptor.format, fixedFields, Descriptor.i.injEq]
    constructor
    · intro h
      exact ⟨by simpa only [opcodeField_packI] using congrArg opcodeField h,
        by simpa only [funct3Field_packI] using congrArg funct3Field h⟩
    · rintro ⟨h1, h2⟩
      rw [h1, h2]
  | u opcode =>
    simp only [maskOf, patternOf, and_maskU, Descriptor.format, fixedFields, Descriptor.u.injEq]
    constructor
    · intro h
      simpa only [opcodeField_packU] using congrArg opcodeField h
    · rintro rfl
      rfl

/-- For a descriptor of the table, having its fixed fields is showing it: its opcode determines its format. -/
theorem fixedFields_eq_descriptor_iff (w : Word) (m : Mnemonic) :
    fixedFields w (descriptor m).format = descriptor m ↔ descriptor m = shownDescriptor w := by
  constructor
  · intro h
    have hopcode : opcodeField w = (descriptor m).opcode := by rw [← fixedFields_opcode w _, h]
    rw [shownDescriptor, hopcode, formatOfOpcode_descriptor, h]
  · intro h
    have hopcode : opcodeField w = (descriptor m).opcode := by rw [h, shownDescriptor, fixedFields_opcode]
    rw [← formatOfOpcode_descriptor, ← hopcode, h, shownDescriptor]

/-- The rows of spec/opcode_table.json are the mnemonics with the mask of their format and the fixed bits of their
descriptor, in the table's order (30_encoding.md R47, R66). -/
theorem opcodeRows_eq_map : opcodeRows =
    Mnemonic.all.map fun m => ⟨m, patternOf (descriptor m), maskOf (descriptor m)⟩ := by decide

/-- The mnemonics of a word are those whose descriptor it shows. -/
theorem mnemonicsOf_eq_filter (w : Word) :
    mnemonicsOf w = Mnemonic.all.filter fun m => descriptor m = shownDescriptor w := by
  rw [mnemonicsOf, opcodeRows_eq_map, List.filter_map, List.map_map]
  simp only [Function.comp_def, List.map_id', OpcodeRow.covers, Bool.beq_eq_decide_eq, and_maskOf_eq_patternOf,
    fixedFields_eq_descriptor_iff]

theorem mem_mnemonicsOf {w : Word} {m : Mnemonic} : m ∈ mnemonicsOf w ↔ descriptor m = shownDescriptor w := by
  simp [mnemonicsOf_eq_filter, mem_all]

/-- The first mnemonic with a mnemonic's descriptor is itself, but `srli` for `srai` (30_encoding.md R66). -/
theorem find?_descriptor (m : Mnemonic) :
    Mnemonic.all.find? (fun k => descriptor k = descriptor m) = some m.readBack := by
  cases m <;> decide

/-- What the reader reads from a word of a mnemonic. -/
theorem decodeWord_of_descriptor {w : Word} {m : Mnemonic} (h : descriptor m = shownDescriptor w) :
    decodeWord w = some (instrOfWord m.readBack w) := by
  have hhead : (mnemonicsOf w).head? = some m.readBack := by
    rw [mnemonicsOf_eq_filter, List.head?_filter, ← h, find?_descriptor]
  obtain ⟨rest, hrest⟩ := List.head?_eq_some_iff.1 hhead
  rw [decodeWord, hrest]

/-- Where the reader reads something, the mnemonic it reads is one whose descriptor the word shows. -/
theorem decodeWord_eq_some {w : Word} {i : Instr} (h : decodeWord w = some i) :
    ∃ m, descriptor m = shownDescriptor w ∧ i = instrOfWord m w := by
  unfold decodeWord at h
  split at h
  · cases h
  · rename_i m rest hm
    exact ⟨m, mem_mnemonicsOf.1 (hm ▸ List.mem_cons_self), (Option.some.inj h).symm⟩

end Sys2Proof.Proofs

namespace Sys2Proof.Proofs

open Sys2Proof.Machine Sys2Proof.Laws

/-! ## Reading back and encoding again -/

/-- The operands of a format in a word, as the reader spells them (log entry 5). -/
def operandsRead (w : Word) : Format → List Token
  | .R => [regName (rdField w).toNat, regName (rs1Field w).toNat, regName (rs2Field w).toNat]
  | .I => [regName (rdField w).toNat, regName (rs1Field w).toNat, dec (imm12Field w).toNat]
  | .U => [regName (rdField w).toNat, dec (imm20Field w).toNat]

theorem instrOfWord_eq (m : Mnemonic) (w : Word) :
    instrOfWord m w = m.instr (operandsRead w (descriptor m).format) := by
  unfold instrOfWord
  split <;> rename_i h <;> rw [h, operandsRead]

/-- No operand the reader spells is empty or holds a separator. -/
theorem operandsRead_are_tokens (w : Word) (fmt : Format) :
    ∀ t ∈ operandsRead w fmt, t ≠ [] ∧ ∀ c ∈ t, isSeparator c = false := by
  have hreg (n : Nat) : regName n ≠ [] ∧ ∀ c ∈ regName n, isSeparator c = false :=
    ⟨List.cons_ne_nil _ _, regName_not_separator n⟩
  have hdec (n : Nat) : dec n ≠ [] ∧ ∀ c ∈ dec n, isSeparator c = false := ⟨dec_ne_nil n, dec_not_separator n⟩
  cases fmt with
  | R => simpa only [operandsRead, List.forall_mem_cons] using ⟨hreg _, hreg _, hreg _, List.forall_mem_nil _⟩
  | I => simpa only [operandsRead, List.forall_mem_cons] using ⟨hreg _, hreg _, hdec _, List.forall_mem_nil _⟩
  | U => simpa only [operandsRead, List.forall_mem_cons] using ⟨hreg _, hdec _, List.forall_mem_nil _⟩

/-- The unsigned value of a field does not overflow it (30_encoding.md R60). -/
theorem ovf_toNat {n : Nat} (b : BitVec n) : ovf n b.toNat = false := by
  have hlow : (0 : Int) < 2 ^ (n - 1) := by positivity
  have hhigh : (b.toNat : Int) < 2 ^ n := by exact_mod_cast b.isLt
  rw [ovf, decide_eq_false_iff_not]
  omega

/-- Encoding the operands read from a word under the descriptor it shows gives the word, without overflow. -/
theorem encodeOps_operandsRead {w : Word} {d : Descriptor} (h : fixedFields w d.format = d) (hex : Bool) :
    encodeOps hex d (operandsRead w d.format) = .ok (w, false) := by
  rw [encodeOps_eq_ok]
  cases d with
  | r opcode funct3 funct7 =>
    obtain ⟨rfl, rfl, rfl⟩ := Descriptor.r.inj h
    exact ⟨_, _, _, rfl, (packR_fields w).symm, rfl⟩
  | i opcode funct3 =>
    obtain ⟨rfl, rfl⟩ := Descriptor.i.inj h
    exact ⟨_, _, _, _, rfl, parseImm_dec .., by rw [mask_toNat_self, packI_fields], (ovf_toNat _).symm⟩
  | u opcode =>
    obtain rfl := Descriptor.u.inj h
    exact ⟨_, _, _, rfl, parseImm_dec .., by rw [mask_toNat_self, packU_fields], (ovf_toNat _).symm⟩

/-- What the reader reads from a word encodes to that word, without overflow. -/
theorem encodeOps_of_decodeWord {w : Word} {i : Instr} (h : decodeWord w = some i) (hex : Bool) :
    encodeOps hex (descriptor i.mnemonic) i.ops = .ok (w, false) := by
  obtain ⟨m, hm, rfl⟩ := decodeWord_eq_some h
  rw [instrOfWord_eq, instr_mnemonic, instr_ops]
  exact encodeOps_operandsRead ((fixedFields_eq_descriptor_iff w m).2 hm) hex

/-- Settles O37: encoding the instruction read succeeds with the word, so the instruction is well-formed. -/
theorem encodeOfDecodeIsTheWord : Obligations.EncodeOfDecodeIsTheWord := by
  intro w i h hex
  have hencode : encode hex i = some w := encode_eq_some.2 ⟨false, encodeOps_of_decodeWord h hex⟩
  refine ⟨?_, hencode⟩
  rw [← encodeDefined_of i hex, hencode, Option.isSome_some]

/-- Settles O39: the line of the instruction read decodes to it, and its result is the word. -/
theorem stepOnTheLineOfAWordGivesTheWord : Obligations.StepOnTheLineOfAWordGivesTheWord := by
  intro hex w i h
  obtain ⟨m, -, hi⟩ := decodeWord_eq_some h
  have hops : i.ops = operandsRead w (descriptor m).format := by rw [hi, instrOfWord_eq, instr_ops]
  rw [gives_iff, encodeLine, decodeLine_line i (hops ▸ operandsRead_are_tokens w _)]
  exact result_eq_ok.2 (encodeOps_of_decodeWord h hex)

/-- The word of an instruction shows the descriptor of its mnemonic. -/
theorem descriptor_of_encode {hex : Bool} {i : Instr} {w : Word} (h : encode hex i = some w) :
    descriptor i.mnemonic = shownDescriptor w :=
  mem_mnemonicsOf.1 (tablePattern_of i hex w h)

/-- `srai` and `srli` have one descriptor (30_encoding.md R66). -/
theorem descriptor_readBack (m : Mnemonic) : descriptor m.readBack = descriptor m := by cases m <;> rfl

theorem readBack_of_ne_srai {m : Mnemonic} (h : m ≠ .srai) : m.readBack = m := by
  unfold Mnemonic.readBack
  split
  · contradiction
  · rfl

/-- The operands in the word of an instruction are the instruction's, respelled. -/
theorem instrOfWord_of_encode {hex : Bool} {i : Instr} {w : Word} (h : encode hex i = some w) :
    instrOfWord i.mnemonic.readBack w = i.respell hex := by
  obtain ⟨o, ho⟩ := encode_eq_some.1 h
  rw [encodeOps_eq_ok] at ho
  rw [instrOfWord_eq, descriptor_readBack]
  cases hd : descriptor i.mnemonic with
  | r opcode funct3 funct7 =>
    rw [hd] at ho
    obtain ⟨rd, rs1, rs2, hops, rfl, -⟩ := ho
    simp only [Instr.respell, hd, hops, Descriptor.format, operandsRead, rdField_packR, rs1Field_packR, rs2Field_packR]
  | i opcode funct3 =>
    rw [hd] at ho
    obtain ⟨rd, rs1, t, v, hops, hv, rfl, -⟩ := ho
    simp only [Instr.respell, hd, hops, Descriptor.format, operandsRead, rdField_packI, rs1Field_packI,
      imm12Field_packI, respellImm, hv]
  | u opcode =>
    rw [hd] at ho
    obtain ⟨rd, t, v, hops, hv, rfl, -⟩ := ho
    simp only [Instr.respell, hd, hops, Descriptor.format, operandsRead, rdField_packU, imm20Field_packU, respellImm, hv]

/-- Reading back the word of an instruction gives the instruction, respelled. -/
theorem decodeWord_of_encode {hex : Bool} {i : Instr} {w : Word} (h : encode hex i = some w) :
    decodeWord w = some (i.respell hex) := by
  rw [decodeWord_of_descriptor (descriptor_of_encode h), instrOfWord_of_encode h]

/-- Settles O35: a well-formed instruction has a word, and the word's fields are the instruction's. -/
theorem decodeOfEncodeIsTheInstruction : Obligations.DecodeOfEncodeIsTheInstruction := by
  intro hex i hwf
  obtain ⟨w, hw⟩ := Option.isSome_iff_exists.1 ((encodeDefined_of i hex).trans hwf)
  exact ⟨w, hw, decodeWord_of_encode hw⟩

/-- The reader's own spelling of an immediate is respelled as itself. -/
theorem respellImm_dec (hex : Bool) (fmt : Format) {n : Nat} (b : BitVec n) :
    respellImm hex fmt n (dec b.toNat) = dec b.toNat := by
  simp only [respellImm, parseImm_dec, mask_toNat_self]

/-- A well-formed instruction in the reader's spelling is read back from its word. -/
theorem encode_bind_decodeWord {hex : Bool} {i : Instr} (hwf : i.wellFormed hex = true) (h : i.respell hex = i) :
    (encode hex i).bind decodeWord = some i := by
  obtain ⟨w, hw, hread⟩ := decodeOfEncodeIsTheInstruction hex i hwf
  rw [hw, Option.bind_some, hread, h]

/-- Settles O36: register names and unsigned decimal immediates are the reader's spelling. -/
theorem decodeOfEncodeIsIdentity : Obligations.DecodeOfEncodeIsIdentity := by
  intro hex m hm
  have hback := readBack_of_ne_srai hm
  cases hd : descriptor m with
  | r opcode funct3 funct7 =>
    intro rd rs1 rs2
    refine encode_bind_decodeWord ?_ ?_
    · simpa [wellFormed_eq, hd, Descriptor.format] using wellFormedR_iff.2 ⟨rd, rs1, rs2, rfl⟩
    · simp [Instr.respell, hd, hback, Descriptor.format]
  | i opcode funct3 =>
    intro rd rs1 imm
    refine encode_bind_decodeWord ?_ ?_
    · simpa [wellFormed_eq, hd, Descriptor.format] using
        wellFormedI_iff.2 ⟨rd, rs1, _, _, rfl, parseImm_dec hex .I imm.toNat⟩
    · simp [Instr.respell, hd, hback, Descriptor.format, respellImm_dec]
  | u opcode =>
    intro rd imm
    refine encode_bind_decodeWord ?_ ?_
    · simpa [wellFormed_eq, hd, Descriptor.format] using
        wellFormedU_iff.2 ⟨rd, _, _, rfl, parseImm_dec hex .U imm.toNat⟩
    · simp [Instr.respell, hd, hback, Descriptor.format, respellImm_dec]

/-- Settles O38: both instructions are respelled as the one read from their word, and both mnemonics have the
descriptor it shows. -/
theorem onlySrliAndSraiShareWords : Obligations.OnlySrliAndSraiShareWords := by
  intro hex hex' i j w hi hj
  refine ⟨Option.some.inj ((decodeWord_of_encode hi).symm.trans (decodeWord_of_encode hj)), ?_⟩
  have hback : i.mnemonic.readBack = j.mnemonic.readBack := by
    have hfind := find?_descriptor i.mnemonic
    rw [descriptor_of_encode hi, ← descriptor_of_encode hj, find?_descriptor] at hfind
    exact (Option.some.inj hfind).symm
  by_cases hsi : i.mnemonic = .srai <;> by_cases hsj : j.mnemonic = .srai
  · exact .inl (hsi.trans hsj.symm)
  · exact .inr (.inr ⟨hsi, by rw [← readBack_of_ne_srai hsj, ← hback, hsi]; rfl⟩)
  · exact .inr (.inl ⟨by rw [← readBack_of_ne_srai hsi, hback, hsj]; rfl, hsj⟩)
  · exact .inl (by rw [← readBack_of_ne_srai hsi, hback, readBack_of_ne_srai hsj])

end Sys2Proof.Proofs

namespace Sys2Proof.Proofs

open Sys2Proof.Machine Sys2Proof.Statements

/-! ## Tokens of a line -/

/-- Settles O13: the definitions of the two sets of characters. -/
theorem separatorsAreTheSevenCharacters : Obligations.SeparatorsAreTheSevenCharacters := by
  intro c
  constructor
  · simp only [isWhitespace, Bool.or_eq_true, beq_iff_eq, or_assoc]
  · simp only [isSeparator, Bool.or_eq_true, beq_iff_eq]

/-- Settles O14: the tokenizer's laws. -/
theorem tokensAreTheMaximalRuns : Obligations.TokensAreTheMaximalRuns :=
  ⟨tokens_nil, tokens_separator,
    fun t hne ht => ⟨tokens_run t hne ht, fun c l hc => tokens_run_separator t c l hne ht hc⟩,
    fun _ _ ht => tokens_mem ht⟩

/-- A non-empty run of characters that are no separators. -/
def IsToken (t : Token) : Prop := t ≠ [] ∧ ∀ c ∈ t, isSeparator c = false

/-- What may follow a token on a line: nothing, or text that a separator begins. -/
def EndsToken (l : Line) : Prop := ∀ c ∈ l.head?, isSeparator c = true

theorem endsToken_of_separators {l : Line} (h : Separators l) : EndsToken l :=
  fun c hc => h c (List.mem_of_mem_head? hc)

theorem endsToken_append {sep : Text} (hsep : Separators sep) (hne : sep ≠ []) (l : Line) : EndsToken (sep ++ l) := by
  intro c hc
  rw [List.head?_append_of_ne_nil _ hne] at hc
  exact hsep c (List.mem_of_mem_head? hc)

/-- What begins with a token does not end one. -/
theorem not_endsToken_append {t : Token} (ht : IsToken t) (l : Line) : ¬ EndsToken (t ++ l) := by
  obtain ⟨hne, hns⟩ := ht
  obtain ⟨c, cs, rfl⟩ := List.exists_cons_of_ne_nil hne
  intro h
  have hsep : isSeparator c = true := h c rfl
  rw [hns c List.mem_cons_self] at hsep
  cases hsep

/-- The tokenizer takes a token that stands in front of a separator or at the end of the line. -/
theorem tokens_append_of_isToken {t : Token} {l : Line} (ht : IsToken t) (hl : EndsToken l) :
    tokens (t ++ l) = t :: tokens l := by
  obtain ⟨hne, hns⟩ := ht
  cases l with
  | nil => rw [List.append_nil, tokens_run t hne hns, tokens_nil]
  | cons c cs =>
    have hc : isSeparator c = true := hl c rfl
    rw [tokens_run_separator t c cs hne hns hc, tokens_separator c cs hc]

/-- A text is a run of characters that satisfy `p`, in front of nothing or of a character that does not. -/
theorem run_split (p : Char → Bool) (l : Text) : ∃ run rest, l = run ++ rest ∧ (∀ c ∈ run, p c = true) ∧
    ∀ c ∈ rest.head?, p c = false := by
  refine ⟨l.takeWhile p, l.dropWhile p, List.takeWhile_append_dropWhile.symm,
    fun c hc => List.mem_takeWhile_imp hc, fun c hc => ?_⟩
  have hhead := List.head?_dropWhile_not p l
  rw [Option.mem_def.1 hc] at hhead
  simpa using hhead

/-- A line is either separators, or a token behind separators, with what ends the token. -/
theorem line_cases (line : Line) : Separators line ∨
    ∃ pre t rest, line = pre ++ (t ++ rest) ∧ Separators pre ∧ IsToken t ∧ EndsToken rest := by
  obtain ⟨pre, body, rfl, hpre, hbody⟩ := run_split isSeparator line
  obtain ⟨t, rest, rfl, ht, hrest⟩ := run_split (fun c => !isSeparator c) body
  simp only [Bool.not_eq_true', Bool.not_eq_false'] at ht hrest
  cases t with
  | nil =>
    cases rest with
    | nil =>
      rw [List.append_nil, List.append_nil]
      exact .inl hpre
    | cons c cs =>
      have hsep : isSeparator c = true := hrest c rfl
      rw [hbody c rfl] at hsep
      cases hsep
  | cons c cs => exact .inr ⟨pre, c :: cs, rest, rfl, hpre, ⟨List.cons_ne_nil _ _, ht⟩, hrest⟩

/-- A line has no tokens exactly when all its characters are separators (30_encoding.md R44). -/
theorem tokens_eq_nil_iff {line : Line} : tokens line = [] ↔ Separators line := by
  constructor
  · intro h
    rcases line_cases line with hsep | ⟨pre, t, rest, rfl, hpre, ht, hrest⟩
    · exact hsep
    · rw [tokens_separators pre _ hpre, tokens_append_of_isToken ht hrest] at h
      cases h
  · intro h
    rw [← List.append_nil line, tokens_separators line [] h, tokens_nil]

/-- Where the first token of a line stands, and where the others come from. -/
theorem exists_of_tokens_eq_cons {line : Line} {t : Token} {ts : List Token} (h : tokens line = t :: ts) :
    ∃ pre rest, line = pre ++ (t ++ rest) ∧ Separators pre ∧ EndsToken rest ∧ tokens rest = ts := by
  rcases line_cases line with hsep | ⟨pre, u, rest, rfl, hpre, hu, hrest⟩
  · rw [tokens_eq_nil_iff.2 hsep] at h
    cases h
  · rw [tokens_separators pre _ hpre, tokens_append_of_isToken hu hrest] at h
    obtain ⟨rfl, rfl⟩ := List.cons.inj h
    exact ⟨pre, rest, rfl, hpre, hrest, rfl⟩

/-- Settles O16: `Encode` gives BLANK exactly without tokens, and a step gives what `Encode` gives. -/
theorem blankExactlyForLinesOfSeparators : Obligations.BlankExactlyForLinesOfSeparators :=
  fun _ _ => ⟨gives_iff.trans encodeLine_eq_blank, tokens_eq_nil_iff⟩

end Sys2Proof.Proofs

namespace Sys2Proof.Proofs

open Sys2Proof.Machine Sys2Proof.Statements

/-! ## Operands behind separators (30_encoding.md R69) -/

/-- A token with separators, one at least, in front of it. -/
def IsPart (p : Text × Token) : Prop := (Separators p.1 ∧ p.1 ≠ []) ∧ IsToken p.2

theorem spaced_cons_append (p : Text × Token) (parts : List (Text × Token)) (post : Text) :
    spaced (p :: parts) ++ post = p.1 ++ (p.2 ++ (spaced parts ++ post)) := by
  simp only [spaced, List.flatMap_cons, List.append_assoc]

theorem endsToken_spaced_append {parts : List (Text × Token)} {post : Text} (hparts : ∀ p ∈ parts, IsPart p)
    (hpost : Separators post) : EndsToken (spaced parts ++ post) := by
  cases parts with
  | nil => exact endsToken_of_separators hpost
  | cons p parts =>
    obtain ⟨⟨hsep, hne⟩, -⟩ := hparts p List.mem_cons_self
    rw [spaced_cons_append]
    exact endsToken_append hsep hne _

theorem tokens_spaced_append {parts : List (Text × Token)} {post : Text} (hparts : ∀ p ∈ parts, IsPart p)
    (hpost : Separators post) : tokens (spaced parts ++ post) = parts.map Prod.snd := by
  induction parts with
  | nil => exact tokens_eq_nil_iff.2 hpost
  | cons p parts ih =>
    obtain ⟨⟨⟨hsep, -⟩, ht⟩, hrest⟩ := List.forall_mem_cons.1 hparts
    rw [spaced_cons_append, tokens_separators _ _ hsep,
      tokens_append_of_isToken ht (endsToken_spaced_append hrest hpost), ih hrest, List.map_cons]

/-- The other direction: text that ends a token is its tokens behind separators. -/
theorem exists_spaced_append {ts : List Token} {l : Line} (hl : EndsToken l) (h : tokens l = ts) :
    ∃ parts post, l = spaced parts ++ post ∧ (∀ p ∈ parts, IsPart p) ∧ Separators post ∧ parts.map Prod.snd = ts := by
  induction ts generalizing l with
  | nil => exact ⟨[], l, rfl, List.forall_mem_nil _, tokens_eq_nil_iff.1 h, rfl⟩
  | cons t ts ih =>
    have ht : IsToken t := tokens_mem (h ▸ List.mem_cons_self)
    obtain ⟨pre, rest, rfl, hpre, hrest, hts⟩ := exists_of_tokens_eq_cons h
    have hne : pre ≠ [] := by
      rintro rfl
      exact not_endsToken_append ht rest hl
    obtain ⟨parts, post, rfl, hparts, hpost, hmap⟩ := ih hrest hts
    exact ⟨(pre, t) :: parts, post, by rw [spaced_cons_append],
      List.forall_mem_cons.2 ⟨⟨⟨hpre, hne⟩, ht⟩, hparts⟩, hpost, by rw [List.map_cons, hmap]⟩

/-- The lines with given tokens, one at least (30_encoding.md R42, R45). -/
theorem tokens_eq_cons_iff {line : Line} {t : Token} {ts : List Token} (ht : IsToken t) :
    tokens line = t :: ts ↔ ∃ pre parts post, line = pre ++ (t ++ (spaced parts ++ post)) ∧ Separators pre ∧
      (∀ p ∈ parts, IsPart p) ∧ Separators post ∧ parts.map Prod.snd = ts := by
  constructor
  · intro h
    obtain ⟨pre, rest, rfl, hpre, hrest, hts⟩ := exists_of_tokens_eq_cons h
    obtain ⟨parts, post, rfl, hparts, hpost, hmap⟩ := exists_spaced_append hrest hts
    exact ⟨pre, parts, post, rfl, hpre, hparts, hpost, hmap⟩
  · rintro ⟨pre, parts, post, rfl, hpre, hparts, hpost, rfl⟩
    rw [tokens_separators _ _ hpre, tokens_append_of_isToken ht (endsToken_spaced_append hparts hpost),
      tokens_spaced_append hparts hpost]

/-- Separators at the end of a line change no token. -/
theorem tokensFrom_append_separators {post : Text} (hpost : Separators post) (cur : Token) (l : Line) :
    tokensFrom cur (l ++ post) = tokensFrom cur l := by
  induction l generalizing cur with
  | nil =>
    cases post with
    | nil => rfl
    | cons c cs =>
      obtain ⟨hc, hcs⟩ := List.forall_mem_cons.1 hpost
      have hrest : tokensFrom [] cs = [] := tokens_eq_nil_iff.2 hcs
      simp only [List.nil_append, tokensFrom, hc, if_true, hrest]
  | cons c cs ih => simp only [List.cons_append, tokensFrom, ih]

/-- Settles O15: a token in front of spaced tokens, and separators around any line. -/
theorem spacingDoesNotMatter : Obligations.SpacingDoesNotMatter := by
  constructor
  · intro first more post hall hmore hpost
    obtain ⟨⟨hpre, ht⟩, hrest⟩ := List.forall_mem_cons.1 hall
    refine (tokens_eq_cons_iff ht).2 ⟨first.1, more, post, spaced_cons_append .., hpre, fun p hp => ?_, hpost, rfl⟩
    obtain ⟨hsep, htok⟩ := hrest p hp
    exact ⟨⟨hsep, hmore p hp⟩, htok⟩
  · intro pre post l hpre hpost
    rw [List.append_assoc, tokens_separators pre _ hpre]
    exact tokensFrom_append_separators hpost [] l

end Sys2Proof.Proofs

namespace Sys2Proof.Proofs

open Sys2Proof.Machine Sys2Proof.Statements

/-! ## Lookup -/

/-- Settles O17: `Lookup` inverts `key`, so the keys are distinct. -/
theorem lookupIsExactMatch : Obligations.LookupIsExactMatch := by
  refine ⟨fun _ _ => lookup_eq_some, fun t => ?_, rfl, ?_, mem_all⟩
  · simp only [lookup_eq_none, List.mem_map, mem_all, true_and, not_exists, ne_eq, eq_comm (a := t)]
  · exact List.Nodup.map (fun _ _ => key_injective) (by decide)

/-- A line whose first token is no key gives UnknownMnemonic, whatever follows (60_exceptions.md R95). -/
theorem encodeLine_of_lookup_eq_none {line : Line} {t : Token} {ops : List Token} (hline : tokens line = t :: ops)
    (ht : lookup t = none) (hex : Bool) : encodeLine hex line = .err .unknownMnemonic 0 := by
  rw [encodeLine, decodeLine, hline]
  simp only [ht]

/-- A line whose first token is a key gives the result of its instruction (30_encoding.md R39, R43). -/
theorem encodeLine_of_key {line : Line} {k : Mnemonic} {ops : List Token} (hline : tokens line = k.key :: ops)
    (hex : Bool) : encodeLine hex line = (k.instr ops).result hex := by
  rw [encodeLine, decodeLine, hline]
  simp only [lookup_key]

/-- The three kinds of lines (30_encoding.md R44, R49, R43). -/
theorem tokens_cases (line : Line) : tokens line = [] ∨ (∃ t ops, tokens line = t :: ops ∧ lookup t = none) ∨
    ∃ (k : Mnemonic) (ops : List Token), tokens line = k.key :: ops := by
  cases tokens line with
  | nil => exact .inl rfl
  | cons t ops =>
    cases ht : lookup t with
    | none => exact .inr (.inl ⟨t, ops, rfl, ht⟩)
    | some k => exact .inr (.inr ⟨k, ops, by rw [lookup_eq_some.1 ht]⟩)

/-- The listed spellings are tokens outside the table. -/
theorem otherMnemonicSpellings_unknown :
    ∀ t ∈ otherMnemonicSpellings, t ≠ [] ∧ t.all (!isSeparator ·) = true ∧ lookup t = none := by decide

/-- Settles O21: each listed spelling is one token, and no key. -/
theorem listedOtherSpellingsAreUnknown : Obligations.ListedOtherSpellingsAreUnknown := by
  intro hex t ht
  obtain ⟨hne, hall, hlookup⟩ := otherMnemonicSpellings_unknown t ht
  refine ⟨fun line ops hline => gives_iff.2 (encodeLine_of_lookup_eq_none hline hlookup hex), gives_iff.2 ?_⟩
  exact encodeLine_of_lookup_eq_none (tokens_run t hne (by simpa using hall)) hlookup hex

end Sys2Proof.Proofs

namespace Sys2Proof.Proofs

open Sys2Proof.Machine Sys2Proof.Statements

/-! ## Digits -/

theorem decDigit_eq_some {c : Char} {d : Nat} : decDigit c = some d ↔ IsDecDigit c d := by
  have hread : ∀ d < 10, "0123456789".toList[d]? = some (digitChar d) := by decide
  constructor
  · intro h
    unfold decDigit at h
    split at h
    · have hd : c.toNat = 48 + d ∧ d < 10 := by
        have := Option.some.inj h
        omega
      rw [IsDecDigit, hread d hd.2, digitChar, ← hd.1, Char.ofNat_toNat]
    · cases h
  · intro h
    have hd : d < 10 := (List.getElem?_eq_some_iff.1 h).1
    obtain rfl := Option.some.inj ((hread d hd).symm.trans h)
    exact decDigit_digitChar hd

theorem hexDigit_eq_some {c : Char} {d : Nat} : hexDigit c = some d ↔ IsHexDigit c d := by
  constructor
  · have hdec : ∀ d < 10, "0123456789abcdef".toList[d]? = some (Char.ofNat (48 + d)) := by decide
    have hlower : ∀ d < 6, "0123456789abcdef".toList[10 + d]? = some (Char.ofNat (97 + d)) := by decide
    have hupper : ∀ d < 6, "0123456789ABCDEF".toList[10 + d]? = some (Char.ofNat (65 + d)) := by decide
    intro h
    unfold hexDigit at h
    split_ifs at h with h1 h2 h3
    · obtain rfl := Option.some.inj h
      left
      rw [hdec _ (by omega), Nat.add_sub_cancel' h1.1, Char.ofNat_toNat]
    · obtain rfl := Option.some.inj h
      left
      rw [show c.toNat - 87 = 10 + (c.toNat - 97) by omega, hlower _ (by omega), Nat.add_sub_cancel' h2.1,
        Char.ofNat_toNat]
    · obtain rfl := Option.some.inj h
      right
      rw [show c.toNat - 55 = 10 + (c.toNat - 65) by omega, hupper _ (by omega), Nat.add_sub_cancel' h3.1,
        Char.ofNat_toNat]
  · have hlower : ∀ d < 16, "0123456789abcdef".toList[d]?.bind hexDigit = some d := by decide
    have hupper : ∀ d < 16, "0123456789ABCDEF".toList[d]?.bind hexDigit = some d := by decide
    rintro (h | h)
    · have hread := hlower d (List.getElem?_eq_some_iff.1 h).1
      rwa [h, Option.bind_some] at hread
    · have hread := hupper d (List.getElem?_eq_some_iff.1 h).1
      rwa [h, Option.bind_some] at hread

section
variable {base : Nat} {digit : Char → Option Nat} {D : Char → Nat → Prop}

theorem digitsValue_eq_some (hdigit : ∀ c d, digit c = some d ↔ D c d) {t : Text} {acc n : Nat} :
    digitsValue base digit acc t = some n ↔
      ∃ vs, List.Forall₂ D t vs ∧ n = vs.foldl (fun a d => base * a + d) acc := by
  induction t generalizing acc with
  | nil =>
    simp only [digitsValue, List.forall₂_nil_left_iff, exists_eq_left, List.foldl_nil, Option.some_inj, eq_comm]
  | cons c cs ih =>
    simp only [List.forall₂_cons_left_iff, ← hdigit]
    cases hc : digit c with
    | none => simp [digitsValue, hc]
    | some d =>
      simp only [digitsValue, hc, ih, Option.some_inj, mul_comm acc]
      constructor
      · rintro ⟨vs, hvs, hn⟩
        exact ⟨d :: vs, ⟨d, vs, rfl, hvs, rfl⟩, hn⟩
      · rintro ⟨_, ⟨_, vs, rfl, hvs, rfl⟩, hn⟩
        exact ⟨vs, hvs, hn⟩

/-- `digits` reads exactly the digit strings, with their values (30_encoding.md R54, R55). -/
theorem digits_eq_some (hdigit : ∀ c d, digit c = some d ↔ D c d) {t : Text} {n : Nat} :
    digits base digit t = some n ↔ DigitString base D t n := by
  cases t with
  | nil =>
    simp only [digits, DigitString, List.forall₂_nil_left_iff, reduceCtorEq, false_iff]
    rintro ⟨vs, hne, rfl, -⟩
    exact hne rfl
  | cons c cs =>
    rw [digits, digitsValue_eq_some hdigit, DigitString]
    refine exists_congr fun vs => (and_iff_right_of_imp ?_).symm
    rintro ⟨hvs, -⟩ rfl
    cases hvs

/-- A digit string is non-empty, and all its characters are digits. -/
theorem mem_digitString {ds : Text} {n : Nat} (h : DigitString base D ds n) : ds ≠ [] ∧ ∀ c ∈ ds, ∃ d, D c d := by
  obtain ⟨vs, hne, hvs, -⟩ := h
  constructor
  · rintro rfl
    exact hne (List.forall₂_nil_left_iff.1 hvs)
  · intro c hc
    obtain ⟨k, hk, rfl⟩ := List.getElem_of_mem hc
    exact ⟨_, List.Forall₂.get hvs hk (hvs.length_eq ▸ hk)⟩

theorem exists_forall₂_of_forall {ds : Text} (hds : ∀ c ∈ ds, ∃ d, D c d) : ∃ vs, List.Forall₂ D ds vs := by
  induction ds with
  | nil => exact ⟨[], .nil⟩
  | cons c cs ih =>
    obtain ⟨⟨d, hd⟩, hcs⟩ := List.forall_mem_cons.1 hds
    obtain ⟨vs, hvs⟩ := ih hcs
    exact ⟨d :: vs, .cons hd hvs⟩

/-- Every non-empty text of digits is a digit string, of whatever length (30_encoding.md R58). -/
theorem exists_digitString {ds : Text} (hne : ds ≠ []) (hds : ∀ c ∈ ds, ∃ d, D c d) :
    ∃ n, DigitString base D ds n := by
  obtain ⟨vs, hvs⟩ := exists_forall₂_of_forall hds
  refine ⟨_, vs, ?_, hvs, rfl⟩
  rintro rfl
  exact hne (List.forall₂_nil_right_iff.1 hvs)

end

end Sys2Proof.Proofs

namespace Sys2Proof.Proofs

open Sys2Proof.Machine Sys2Proof.Statements

/-! ## Numerals -/

theorem isDecDigit_ne_sign {c : Char} {d : Nat} (h : IsDecDigit c d) : c ≠ '-' ∧ c ≠ '+' := by
  rw [← decDigit_eq_some] at h
  constructor <;> (rintro rfl; cases h)

/-- `ParseDec` reads exactly the decimal numerals (30_encoding.md R54). -/
theorem parseDec_eq_some {t : Text} {v : Int} : parseDec t = some v ↔ DecimalNumeral t v := by
  have hunsigned {ds : Text} {n : Nat} (h : DigitString 10 IsDecDigit ds n) {c : Char} {cs : Text}
      (hds : c :: cs = ds) : c ≠ '-' ∧ c ≠ '+' := by
    subst hds
    obtain ⟨d, hd⟩ := (mem_digitString h).2 c List.mem_cons_self
    exact isDecDigit_ne_sign hd
  unfold parseDec DecimalNumeral
  cases t with
  | nil =>
    simp only [reduceCtorEq, false_iff, not_exists, not_and]
    rintro ds n hds (⟨rfl, -⟩ | ⟨h, -⟩ | ⟨h, -⟩)
    · exact (mem_digitString hds).1 rfl
    · cases h
    · cases h
  | cons c cs =>
    simp only [← digits_eq_some fun c d => decDigit_eq_some (c := c) (d := d)] at hunsigned ⊢
    split_ifs with hminus hplus
    · simp only [Option.map_eq_some_iff]
      constructor
      · rintro ⟨n, hn, rfl⟩
        exact ⟨cs, n, hn, .inr (.inr ⟨by rw [hminus], rfl⟩)⟩
      · rintro ⟨ds, n, hn, ⟨hds, rfl⟩ | ⟨hds, rfl⟩ | ⟨hds, rfl⟩⟩
        · exact absurd hminus (hunsigned hn hds).1
        · obtain ⟨rfl, rfl⟩ := List.cons.inj hds
          cases hminus
        · obtain ⟨-, rfl⟩ := List.cons.inj hds
          exact ⟨n, hn, rfl⟩
    · simp only [Option.map_eq_some_iff]
      constructor
      · rintro ⟨n, hn, rfl⟩
        exact ⟨cs, n, hn, .inr (.inl ⟨by rw [hplus], rfl⟩)⟩
      · rintro ⟨ds, n, hn, ⟨hds, rfl⟩ | ⟨hds, rfl⟩ | ⟨hds, rfl⟩⟩
        · exact absurd hplus (hunsigned hn hds).2
        · obtain ⟨-, rfl⟩ := List.cons.inj hds
          exact ⟨n, hn, rfl⟩
        · exact absurd (List.cons.inj hds).1 hminus
    · simp only [Option.map_eq_some_iff]
      constructor
      · rintro ⟨n, hn, rfl⟩
        exact ⟨c :: cs, n, hn, .inl ⟨rfl, rfl⟩⟩
      · rintro ⟨ds, n, hn, ⟨rfl, rfl⟩ | ⟨hds, rfl⟩ | ⟨hds, rfl⟩⟩
        · exact ⟨n, hn, rfl⟩
        · exact absurd (List.cons.inj hds).1 hplus
        · exact absurd (List.cons.inj hds).1 hminus

end Sys2Proof.Proofs

namespace Sys2Proof.Proofs

open Sys2Proof.Machine Sys2Proof.Statements

/-! ## Immediates -/

theorem startsWithHexPrefix_iff {t : Text} : startsWithHexPrefix t = true ↔ ['0', 'x'] <+: t := by
  rw [startsWithHexPrefix, beq_iff_eq, List.prefix_iff_eq_take, eq_comm, List.length_cons, List.length_singleton]

/-- Which of the two grammars `ParseImm` reads a token by (30_encoding.md R56). -/
theorem parseImm_eq (hex : Bool) (fmt : Format) (t : Token) : parseImm hex fmt t =
    if (fmt = .U ∨ hex = true) ∧ ['0', 'x'] <+: t then parseHex (t.drop 2) else parseDec t := by
  cases fmt <;> simp [parseImm, startsWithHexPrefix_iff]

/-- A hexadecimal numeral is `0x` and what `ParseHex` reads (30_encoding.md R55). -/
theorem hexNumeral_iff {t : Text} {v : Int} : HexNumeral t v ↔ ['0', 'x'] <+: t ∧ parseHex (t.drop 2) = some v := by
  simp only [HexNumeral, parseHex, Option.map_eq_some_iff, digits_eq_some fun _ _ => hexDigit_eq_some]
  constructor
  · rintro ⟨ds, n, rfl, hds, rfl⟩
    exact ⟨⟨ds, rfl⟩, n, hds, rfl⟩
  · rintro ⟨⟨ds, rfl⟩, n, hds, rfl⟩
    exact ⟨ds, n, rfl, hds, rfl⟩

theorem mem_decimalNumeral {t : Text} {v : Int} (h : DecimalNumeral t v) :
    ∀ c ∈ t, c = '+' ∨ c = '-' ∨ ∃ d, IsDecDigit c d := by
  obtain ⟨ds, n, hds, ⟨rfl, -⟩ | ⟨rfl, -⟩ | ⟨rfl, -⟩⟩ := h
  · exact fun c hc => .inr (.inr ((mem_digitString hds).2 c hc))
  · exact List.forall_mem_cons.2 ⟨.inl rfl, fun c hc => .inr (.inr ((mem_digitString hds).2 c hc))⟩
  · exact List.forall_mem_cons.2 ⟨.inr (.inl rfl), fun c hc => .inr (.inr ((mem_digitString hds).2 c hc))⟩

/-- No decimal numeral has the letter of a leading `0x` in it, in either case. -/
theorem not_decimalNumeral_of_mem {t : Text} (h : 'x' ∈ t ∨ 'X' ∈ t) (v : Int) : ¬ DecimalNumeral t v := by
  intro hdec
  rcases h with hc | hc
  all_goals
    obtain h | h | ⟨d, h⟩ := mem_decimalNumeral hdec _ hc
    · cases h
    · cases h
    · rw [← decDigit_eq_some] at h
      cases h

theorem x_mem_of_prefix {t : Text} (h : ['0', 'x'] <+: t) : 'x' ∈ t := h.subset (by simp)

theorem parseImm_eq_some {hex : Bool} {fmt : Format} {t : Token} {v : Int} :
    parseImm hex fmt t = some v ↔ ImmediateNumeral hex fmt t v := by
  rw [parseImm_eq, ImmediateNumeral, hexNumeral_iff, ← and_assoc]
  split_ifs with h
  · simp [h, not_decimalNumeral_of_mem (.inl (x_mem_of_prefix h.2))]
  · simp [h, parseDec_eq_some]

/-- Settles O5: by the format and a leading `0x` one of the two grammars is left. -/
theorem parseImmReadsExactlyTheNumerals : Obligations.ParseImmReadsExactlyTheNumerals :=
  fun _ _ _ _ => parseImm_eq_some

theorem parseImm_eq_none {hex : Bool} {fmt : Format} {t : Token} :
    parseImm hex fmt t = none ↔ ∀ v, ¬ ImmediateNumeral hex fmt t v := by
  simp only [Option.eq_none_iff_forall_ne_some, ne_eq, parseImm_eq_some]

/-- Settles O6: the decimal spelling of the absolute value, with its sign; and every text of digits is a numeral. -/
theorem numeralsOfAnyLengthAreRead : Obligations.NumeralsOfAnyLengthAreRead := by
  refine ⟨fun hex fmt v => ?_, fun hex fmt t hne ht => ?_, by decide⟩
  · obtain ⟨n, rfl | rfl⟩ := v.eq_nat_or_neg
    · exact ⟨dec n, parseImm_dec hex fmt n⟩
    · have hdec : DigitString 10 IsDecDigit (dec n) n := (digits_eq_some fun _ _ => decDigit_eq_some).1 (digits_dec n)
      exact ⟨'-' :: dec n, parseImm_eq_some.2 (.inl ⟨dec n, n, hdec, .inr (.inr ⟨rfl, rfl⟩)⟩)⟩
  · obtain ⟨n, hn⟩ := exists_digitString (base := 10) hne ht
    exact Option.isSome_iff_exists.2 ⟨n, parseImm_eq_some.2 (.inl ⟨t, n, hn, .inl ⟨rfl, rfl⟩⟩)⟩

end Sys2Proof.Proofs

namespace Sys2Proof.Proofs

open Sys2Proof.Machine Sys2Proof.Statements

/-! ## The masker and the overflow indication -/

theorem mask_eq_ofInt (n : Nat) (v : Int) : mask n v = BitVec.ofInt n v := by
  apply BitVec.eq_of_toNat_eq
  rw [BitVec.toNat_ofInt, Nat.cast_pow, Nat.cast_ofNat, ← mask_toNat, Int.toNat_natCast]

/-- `Mask` is the AND with the mask's bits, at any width that holds them (30_encoding.md R59). -/
theorem ofInt_and_eq_mask {n m : Nat} (h : n ≤ m) (v : Int) :
    BitVec.ofInt m v &&& BitVec.ofNat m (2 ^ n - 1) = (mask n v).setWidth m := by
  have hpow : 2 ^ n ≤ 2 ^ m := Nat.pow_le_pow_right (by decide) h
  have hpos : 0 < 2 ^ n := Nat.two_pow_pos n
  have hbits : (2 ^ n - 1) % 2 ^ m = 2 ^ n - 1 := Nat.mod_eq_of_lt (by omega)
  have hmask : (mask n v).toNat % 2 ^ m = (mask n v).toNat := Nat.mod_eq_of_lt ((mask n v).isLt.trans_le hpow)
  apply BitVec.eq_of_toNat_eq
  rw [BitVec.toNat_and, BitVec.toNat_ofNat, BitVec.toNat_setWidth, hbits, hmask, Nat.and_two_pow_sub_one_eq_mod,
    ← mask_eq_ofInt]
  zify
  rw [mask_toNat, mask_toNat, Int.emod_emod_of_dvd _ (pow_dvd_pow 2 h)]

/-- Settles O8: the remainder, the AND, and the four examples. -/
theorem maskIsRemainderAndTwosComplementAnd : Obligations.MaskIsRemainderAndTwosComplementAnd :=
  ⟨mask_toNat, fun _ _ v h => ofInt_and_eq_mask h v, by decide⟩

theorem ovf_eq_false_iff {n : Nat} {v : Int} : ovf n v = false ↔ -(2 : Int) ^ (n - 1) ≤ v ∧ v ≤ (2 : Int) ^ n - 1 := by
  rw [ovf, decide_eq_false_iff_not, not_or, not_lt, not_lt]

/-- The signed reading of the masked bits gives back the values in the signed range. -/
theorem mask_toInt_eq_iff {n : Nat} (hn : 0 < n) {v : Int} :
    (mask n v).toInt = v ↔ -(2 : Int) ^ (n - 1) ≤ v ∧ v < (2 : Int) ^ (n - 1) := by
  constructor
  · intro h
    exact h ▸ ⟨BitVec.le_toInt _, BitVec.toInt_lt⟩
  · rintro ⟨hlow, hhigh⟩
    rw [mask_eq_ofInt, BitVec.toInt_ofInt_eq_self hn hlow hhigh]

/-- The unsigned reading of the masked bits gives back the values in the unsigned range. -/
theorem mask_toNat_eq_iff {n : Nat} {v : Int} : ((mask n v).toNat : Int) = v ↔ 0 ≤ v ∧ v < (2 : Int) ^ n := by
  have hpos : (0 : Int) < 2 ^ n := by positivity
  rw [mask_toNat]
  constructor
  · intro h
    exact h ▸ ⟨Int.emod_nonneg v hpos.ne', Int.emod_lt_of_pos v hpos⟩
  · rintro ⟨hlow, hhigh⟩
    exact Int.emod_eq_of_lt hlow hhigh

/-- Settles O9: the range without overflow is the signed range together with the unsigned range. -/
theorem overflowMeansNotReadBack : Obligations.OverflowMeansNotReadBack := by
  refine ⟨fun n v hn => ?_, fun v => ovf_eq_false_iff.trans ?_, fun v => ovf_eq_false_iff.trans ?_⟩
  · have hdouble : (2 : Int) ^ n = 2 * 2 ^ (n - 1) := by rw [← pow_succ', Nat.sub_add_cancel hn]
    have hpos : (0 : Int) < 2 ^ (n - 1) := by positivity
    rw [ovf_eq_false_iff, mask_toInt_eq_iff hn, mask_toNat_eq_iff]
    omega
  · norm_num
  · norm_num

end Sys2Proof.Proofs

namespace Sys2Proof.Proofs

open Sys2Proof.Machine Sys2Proof.Statements

/-! ## Where the operands stand in a word -/

/-- Settles O32: a word is packed from the operands and the descriptor, and its fields are what was packed. -/
theorem operandsStandWhereTheLayoutsSay : Obligations.OperandsStandWhereTheLayoutsSay := by
  intro hex i w o h
  have hok := result_eq_ok.1 h
  refine ⟨opcodeField_of_encodeOps_eq_ok hok, ?_⟩
  rw [encodeOps_eq_ok] at hok
  cases hd : descriptor i.mnemonic with
  | r opcode funct3 funct7 =>
    rw [hd] at hok
    obtain ⟨rd, rs1, rs2, hops, rfl, -⟩ := hok
    refine ⟨?_, congrArg some (funct3Field_packR ..).symm, congrArg some (funct7Field_packR ..).symm⟩
    rw [hops, ← rdField, ← rs1Field, ← rs2Field, rdField_packR, rs1Field_packR, rs2Field_packR]
  | i opcode funct3 =>
    rw [hd] at hok
    obtain ⟨rd, rs1, t, v, hops, hv, rfl, -⟩ := hok
    refine ⟨t, v, ?_, congrArg some (funct3Field_packI ..).symm, parseImm_eq_some.1 hv, ?_⟩
    · rw [hops, ← rdField, ← rs1Field, rdField_packI, rs1Field_packI]
    · rw [← imm12Field, imm12Field_packI, mask_eq_ofInt]
  | u opcode =>
    rw [hd] at hok
    obtain ⟨rd, t, v, hops, hv, rfl, -⟩ := hok
    refine ⟨t, v, ?_, parseImm_eq_some.1 hv, ?_⟩
    · rw [hops, ← rdField, rdField_packU]
    · rw [← imm20Field, imm20Field_packU, mask_eq_ofInt]

end Sys2Proof.Proofs

namespace Sys2Proof.Proofs

open Sys2Proof.Machine Sys2Proof.Statements

/-! ## The errors of an instruction, in their order (60_exceptions.md R99) -/

theorem regOperand_of_mem {t : Token} (h : t ∈ regNames) (pos : Pos) : ∃ r, regOperand t pos = .ok r := by
  obtain ⟨r, rfl⟩ := mem_regNames.1 h
  exact ⟨r, regOperand_regName r pos⟩

theorem regOperand_of_not_mem {t : Token} (h : t ∉ regNames) (pos : Pos) :
    regOperand t pos = .error (.invalidRegister, pos) := by
  rw [regOperand, regDecode_eq_none.2 h]

theorem immOperand_of_eq_none {hex : Bool} {fmt : Format} {t : Token} (h : parseImm hex fmt t = none) (pos : Pos) :
    immOperand hex fmt t pos = .error (.malformedImmediate, pos) := by
  rw [immOperand, h]

section
variable {hex : Bool} {d : Descriptor} {t1 t2 t3 : Token} {ts : List Token}

theorem encodeOps_wrong_count {ops : List Token} (h : ops.length ≠ d.format.operandCount) :
    encodeOps hex d ops = .error (.operandCountMismatch, 0) := by
  unfold encodeOps
  split
  · exact absurd rfl h
  · exact absurd rfl h
  · exact absurd rfl h
  · rfl

theorem encodeOps_bad_first (hcount : (t1 :: ts).length = d.format.operandCount) (h1 : t1 ∉ regNames) :
    encodeOps hex d (t1 :: ts) = .error (.invalidRegister, 1) := by
  cases d with
  | r _ _ _ | i _ _ =>
    obtain ⟨t2, t3, rfl⟩ := List.length_eq_two.1 (Nat.succ.inj hcount)
    simp only [encodeOps, regOperand_of_not_mem h1, bind, Except.bind]
  | u _ =>
    obtain ⟨t2, rfl⟩ := List.length_eq_one_iff.1 (Nat.succ.inj hcount)
    simp only [encodeOps, regOperand_of_not_mem h1, bind, Except.bind]

theorem encodeOps_bad_second (hd : d.format ≠ .U) (h1 : t1 ∈ regNames) (h2 : t2 ∉ regNames) :
    encodeOps hex d [t1, t2, t3] = .error (.invalidRegister, 2) := by
  obtain ⟨rd, hrd⟩ := regOperand_of_mem h1 1
  cases d with
  | r _ _ _ | i _ _ => simp only [encodeOps, hrd, regOperand_of_not_mem h2, bind, Except.bind]
  | u _ => exact absurd rfl hd

theorem encodeOps_bad_third (hd : d.format = .R) (h1 : t1 ∈ regNames) (h2 : t2 ∈ regNames) (h3 : t3 ∉ regNames) :
    encodeOps hex d [t1, t2, t3] = .error (.invalidRegister, 3) := by
  obtain ⟨rd, hrd⟩ := regOperand_of_mem h1 1
  obtain ⟨rs1, hrs1⟩ := regOperand_of_mem h2 2
  cases d with
  | r _ _ _ => simp only [encodeOps, hrd, hrs1, regOperand_of_not_mem h3, bind, Except.bind]
  | i _ _ | u _ => cases hd

theorem encodeOps_malformed_I (hd : d.format = .I) (h1 : t1 ∈ regNames) (h2 : t2 ∈ regNames)
    (h3 : parseImm hex .I t3 = none) : encodeOps hex d [t1, t2, t3] = .error (.malformedImmediate, 3) := by
  obtain ⟨rd, hrd⟩ := regOperand_of_mem h1 1
  obtain ⟨rs1, hrs1⟩ := regOperand_of_mem h2 2
  cases d with
  | i _ _ => simp only [encodeOps, hrd, hrs1, immOperand_of_eq_none h3, bind, Except.bind]
  | r _ _ _ | u _ => cases hd

theorem encodeOps_malformed_U (hd : d.format = .U) (h1 : t1 ∈ regNames) (h2 : parseImm hex .U t2 = none) :
    encodeOps hex d [t1, t2] = .error (.malformedImmediate, 2) := by
  obtain ⟨rd, hrd⟩ := regOperand_of_mem h1 1
  cases d with
  | u _ => simp only [encodeOps, hrd, immOperand_of_eq_none h2, bind, Except.bind]
  | r _ _ _ | i _ _ => cases hd

end

/-- An instruction whose encoding fails raises the error, and nothing else happens (60_exceptions.md R101). -/
theorem exec_of_encodeOps_eq_error {m : Mnemonic} {ops : List Token} {s : State} {kind : ErrKind} {pos : Pos}
    (h : encodeOps s.uniformImmHex (descriptor m) ops = .error (kind, pos)) :
    exec (m.instr ops) s = .next (after s (.err kind pos) []) := by
  rw [exec_eq_next_record, result_eq_resultOf, instr_mnemonic, instr_ops, h, record_eq_after]
  rfl

theorem format_ne_U_of_registerCount {fmt : Format} (h : 2 ≤ registerCount fmt) : fmt ≠ .U := by
  rintro rfl
  exact absurd h (by decide)

theorem format_eq_R_of_registerCount {fmt : Format} (h : 3 ≤ registerCount fmt) : fmt = .R := by
  cases fmt with
  | R => rfl
  | I | U => exact absurd h (by decide)

theorem registerCount_le (fmt : Format) : registerCount fmt ≤ 3 := by cases fmt <;> decide

theorem operandCount_eq_three {fmt : Format} (h : fmt ≠ .U) : fmt.operandCount = 3 := by
  cases fmt with
  | R | I => rfl
  | U => contradiction

/-- Settles O12: the spelling stands at position 1, 2 or 3, with as many register names in front. -/
theorem otherRegisterSpellingsAreInvalid : Obligations.OtherRegisterSpellingsAreInvalid := by
  intro s m front behind t pos ht hfront hpos hle hcount
  have hbad := otherRegisterSpellings_not_mem_regNames t ht
  apply exec_of_encodeOps_eq_error
  match front with
  | [] =>
    obtain rfl : pos = 1 := Fin.ext hpos
    exact encodeOps_bad_first (by rw [← hcount, List.length_cons, List.length_nil]; omega) hbad
  | [t1] =>
    obtain rfl : pos = 2 := Fin.ext hpos
    have hU := format_ne_U_of_registerCount hle
    rw [operandCount_eq_three hU] at hcount
    obtain ⟨t3, rfl⟩ := List.length_eq_one_iff.1 (Nat.add_left_cancel hcount : behind.length = 1)
    exact encodeOps_bad_second hU (hfront t1 (by simp)) hbad
  | [t1, t2] =>
    obtain rfl : pos = 3 := Fin.ext hpos
    have hR := format_eq_R_of_registerCount hle
    rw [hR] at hcount
    obtain rfl := List.length_eq_zero_iff.1 (Nat.add_left_cancel hcount : behind.length = 0)
    exact encodeOps_bad_third hR (hfront t1 (by simp)) (hfront t2 (by simp)) hbad
  | _ :: _ :: _ :: _ =>
    have := registerCount_le (descriptor m).format
    simp only [List.length_cons] at hpos
    omega

end Sys2Proof.Proofs

namespace Sys2Proof.Proofs

open Sys2Proof.Machine Sys2Proof.Statements

/-! ## Misread hexadecimal numerals (30_encoding.md R57) -/

/-- The spellings no format takes: a leading `0X`, a bare `0x`, and a sign before or directly behind `0x`. -/
def MisreadHex (t : Token) : Prop :=
  ['0', 'X'] <+: t ∨ t = ['0', 'x'] ∨ ['-', '0', 'x'] <+: t ∨ ['+', '0', 'x'] <+: t ∨
    ['0', 'x', '-'] <+: t ∨ ['0', 'x', '+'] <+: t

theorem sign_not_hexDigit (d : Nat) : ¬ IsHexDigit '-' d ∧ ¬ IsHexDigit '+' d := by
  simp only [← hexDigit_eq_some]
  exact ⟨nofun, nofun⟩

/-- Each spelling has an `x` or `X` in it, and no digits where a hexadecimal numeral has them. -/
theorem not_immediateNumeral_of_misreadHex {t : Token} (h : MisreadHex t) (hex : Bool) (fmt : Format) (v : Int) :
    ¬ ImmediateNumeral hex fmt t v := by
  rintro (hdec | ⟨-, ds, n, rfl, hds, -⟩)
  · refine not_decimalNumeral_of_mem ?_ v hdec
    rcases h with h | rfl | h | h | h | h
    · exact .inr (h.subset (by simp))
    · exact .inl (by simp)
    all_goals exact .inl (h.subset (by simp))
  · obtain ⟨hne, hdigits⟩ := mem_digitString hds
    simp only [MisreadHex, List.cons_prefix_cons, List.cons.injEq, Char.reduceEq, false_and, and_false, true_and,
      false_or, hne] at h
    rcases h with h | h
    · obtain ⟨d, hd⟩ := hdigits '-' (h.subset (by simp))
      exact (sign_not_hexDigit d).1 hd
    · obtain ⟨d, hd⟩ := hdigits '+' (h.subset (by simp))
      exact (sign_not_hexDigit d).2 hd

/-- With the parameter false, an I-type immediate has no hexadecimal spelling (30_encoding.md R56). -/
theorem parseImm_false_I_of_prefix {t : Token} (h : ['0', 'x'] <+: t) : parseImm false .I t = none := by
  rw [parseImm_eq_none]
  rintro v (hdec | ⟨hfmt | hhex, -⟩)
  · exact not_decimalNumeral_of_mem (.inl (x_mem_of_prefix h)) v hdec
  · cases hfmt
  · cases hhex

/-- Settles O7: the tokens are no numerals, and the register operands in front are good. -/
theorem misreadHexNumeralsAreMalformed : Obligations.MisreadHexNumeralsAreMalformed := by
  intro s m rd rs1 t
  have hreg (r : Reg) : regName r.toNat ∈ regNames := mem_regNames.2 ⟨r, rfl⟩
  constructor
  · intro hI hhex hprefix
    refine exec_of_encodeOps_eq_error (encodeOps_malformed_I hI (hreg rd) (hreg rs1) ?_)
    rw [hhex, parseImm_false_I_of_prefix hprefix]
  · intro hmisread
    have hnone (fmt : Format) : parseImm s.uniformImmHex fmt t = none :=
      parseImm_eq_none.2 (not_immediateNumeral_of_misreadHex hmisread _ fmt)
    exact ⟨fun hI => exec_of_encodeOps_eq_error (encodeOps_malformed_I hI (hreg rd) (hreg rs1) (hnone .I)),
      fun hU => exec_of_encodeOps_eq_error (encodeOps_malformed_U hU (hreg rd) (hnone .U))⟩

end Sys2Proof.Proofs

namespace Sys2Proof.Proofs

open Sys2Proof.Machine Sys2Proof.Statements

/-! ## The parameter -/

/-- The parameter decides nothing but how an immediate that begins with `0x` is read, outside U-type (30_encoding.md
R56). -/
theorem immOperand_parameter {fmt : Format} {t : Token} (h : fmt = .U ∨ ¬ ['0', 'x'] <+: t) (pos : Pos) :
    immOperand true fmt t pos = immOperand false fmt t pos := by
  have hparse : parseImm true fmt t = parseImm false fmt t := by
    rcases h with h | h <;> simp [parseImm_eq, h]
  rw [immOperand, hparse, immOperand]

/-- Only I-type operands with good registers and a `0x` immediate encode otherwise under the other parameter. -/
theorem encodeOps_parameter {d : Descriptor} {ops : List Token} (h : encodeOps true d ops ≠ encodeOps false d ops) :
    d.format = .I ∧ ∃ t1 t2 t3, ops = [t1, t2, t3] ∧ t1 ∈ regNames ∧ t2 ∈ regNames ∧ ['0', 'x'] <+: t3 := by
  by_cases hcount : ops.length = d.format.operandCount
  case neg => exact absurd (by rw [encodeOps_wrong_count hcount, encodeOps_wrong_count hcount]) h
  cases d with
  | r _ _ _ =>
    obtain ⟨t1, t2, t3, rfl⟩ := List.length_eq_three.1 hcount
    exact absurd rfl h
  | u _ =>
    obtain ⟨t1, t2, rfl⟩ := List.length_eq_two.1 hcount
    exact absurd (by simp only [encodeOps, immOperand_parameter (.inl rfl)]) h
  | i opcode funct3 =>
    obtain ⟨t1, t2, t3, rfl⟩ := List.length_eq_three.1 hcount
    have h1 : t1 ∈ regNames := by
      by_contra hbad
      exact h (by rw [encodeOps_bad_first hcount hbad, encodeOps_bad_first hcount hbad])
    have h2 : t2 ∈ regNames := by
      by_contra hbad
      have hU : (Descriptor.i opcode funct3).format ≠ .U := nofun
      exact h (by rw [encodeOps_bad_second hU h1 hbad, encodeOps_bad_second hU h1 hbad])
    have h3 : ['0', 'x'] <+: t3 := by
      by_contra hno
      exact h (by simp only [encodeOps, immOperand_parameter (.inr hno)])
    exact ⟨rfl, t1, t2, t3, rfl, h1, h2, h3⟩

/-- Settles O50: a line whose results differ holds an instruction whose encodings differ. -/
theorem parameterMattersOnlyForHexITypeImmediates : Obligations.ParameterMattersOnlyForHexITypeImmediates := by
  intro line h
  rcases tokens_cases line with hline | ⟨t, ops, hline, ht⟩ | ⟨k, ops, hline⟩
  · exact absurd (by rw [encodeLine_eq_blank.2 hline, encodeLine_eq_blank.2 hline]) h
  · exact absurd (by rw [encodeLine_of_lookup_eq_none hline ht, encodeLine_of_lookup_eq_none hline ht]) h
  · simp only [encodeLine_of_key hline, result_eq_resultOf, instr_mnemonic, instr_ops] at h ⊢
    obtain ⟨hI, t1, t2, t3, rfl, h1, h2, h3⟩ := encodeOps_parameter fun heq => h (by rw [heq])
    refine ⟨?_, k, t1, t2, t3, hline, hI, h3⟩
    rw [encodeOps_malformed_I hI h1 h2 (parseImm_false_I_of_prefix h3), resultOf]

end Sys2Proof.Proofs

namespace Sys2Proof.Proofs

open Sys2Proof.Machine Sys2Proof.Statements

/-! ## Ports -/

theorem errKindOf_eq_some {code : BitVec 3} {kind : ErrKind} : errKindOf code = some kind ↔ errCode kind = code := by
  constructor
  · intro h
    simpa [errKindOf] using List.find?_some h
  · rintro rfl
    cases kind <;> decide

theorem eq_ofNat_iff_toFin_eq {b : BitVec 2} {pos : Pos} : b = BitVec.ofNat 2 pos.val ↔ b.toFin = pos := by
  rw [← BitVec.toFin_inj, show (BitVec.ofNat 2 pos.val).toFin = pos from Fin.ext (Nat.mod_eq_of_lt pos.isLt)]

/-- What a consumer reads from ports that show an error (30_encoding.md R38, 60_exceptions.md R94). -/
theorem readPorts_error {p : PortBits} (h : p.resKind = 0b10) {r : Result} :
    readPorts p = .next r ↔ ∃ kind, r = .err kind p.errOperand.toFin ∧ errCode kind = p.errCode ∧
      p.errOperand.toFin ∈ kind.positions := by
  simp only [← errKindOf_eq_some, readPorts, h]
  cases hkind : errKindOf p.errCode with
  | none => simp
  | some kind =>
    by_cases hpos : p.errOperand.toFin ∈ kind.positions
    · simp [hpos, eq_comm]
    · simp [hpos]

/-- Settles O29: by the result kind on the ports, and for an error by its code and position. -/
theorem portsShowExactlyOneResult : Obligations.PortsShowExactlyOneResult := by
  intro p r
  have hkinds : ∀ b : BitVec 2, b = 0b00 ∨ b = 0b01 ∨ b = 0b10 ∨ b = 0b11 := by decide
  rcases hkinds p.resKind with h | h | h | h
  · cases r <;> simp [readPorts, drives, h]
  · cases r <;> simp [readPorts, drives, h]
  · rw [readPorts_error h]
    cases r with
    | ok _ _ | blank => simp [drives, h]
    | err kind pos =>
      simp only [drives, h, Bool.and_eq_true, beq_iff_eq, true_and, eq_ofNat_iff_toFin_eq, Result.err.injEq]
      constructor
      · rintro ⟨_, ⟨rfl, rfl⟩, hcode, hmem⟩
        refine ⟨⟨hcode.symm, rfl⟩, ?_⟩
        rintro _ _ ⟨rfl, rfl⟩
        exact hmem
      · rintro ⟨⟨hcode, rfl⟩, hmem⟩
        exact ⟨kind, ⟨rfl, rfl⟩, hcode.symm, hmem _ _ ⟨rfl, rfl⟩⟩
  · cases r <;> simp [readPorts, drives, h]

/-- Settles O30: no kind has such a code; and what a step records is an allowed result, whose position is one of its
kind. -/
theorem undrivenCodesFaultAndNeverAppear : Obligations.UndrivenCodesFaultAndNeverAppear := by
  constructor
  · rintro p (h | ⟨h, hcode⟩)
    · simp [readPorts, h]
    · have hnone : errKindOf p.errCode = none := by rcases hcode with h | h | h | h <;> rw [h] <;> rfl
      simp [readPorts, h, hnone]
  · intro s t r p hstep hresults hdrives
    refine (portsShowExactlyOneResult p r).2 ⟨hdrives, fun kind pos hr => ?_⟩
    cases hpending : s.pending with
    | nil =>
      obtain rfl := Host.Outcome.next.inj ((step_of_pending_nil hpending).symm.trans hstep)
      simp at hresults
    | cons line rest =>
      obtain rfl := Host.Outcome.next.inj ((step_of_pending_cons hpending).symm.trans hstep)
      have hallowed := encodeLine_allowed s.uniformImmHex line
      have hencode : encodeLine s.uniformImmHex line = r := by simpa using hresults
      rw [hencode, hr] at hallowed
      exact List.contains_iff_mem.1 hallowed

/-- Settles O31: by the variant of the result. -/
theorem noWordWithoutOk : Obligations.NoWordWithoutOk := by
  intro r
  cases r with
  | ok w o => exact iff_of_true ⟨w, rfl⟩ ⟨w, o, rfl⟩
  | blank | err _ _ => exact iff_of_false nofun nofun

end Sys2Proof.Proofs

namespace Sys2Proof.Proofs

open Sys2Proof.Machine Sys2Proof.Statements

/-! ## Renderings -/

/-- Settles O33: equal renderings have equal characters, so the words have equal bits. -/
theorem renderIsTheBitsMostSignificantFirst : Obligations.RenderIsTheBitsMostSignificantFirst := by
  refine fun w => ⟨render_length w, render_getElem? w, fun w' h => BitVec.eq_of_getLsbD_eq fun i hi => ?_⟩
  have hk : 31 - i < 32 := by omega
  have hchar := render_getElem? w (31 - i) hk
  rw [h, render_getElem? w' _ hk, Nat.sub_sub_self (by omega : i ≤ 31)] at hchar
  revert hchar
  cases w.getLsbD i <;> cases w'.getLsbD i <;> decide

end Sys2Proof.Proofs

namespace Sys2Proof.Proofs

open Sys2Proof.Machine Sys2Proof.Statements

/-! ## The instruction table -/

/-- Settles O18: the table, row by row. -/
theorem instructionTableContents : Obligations.InstructionTableContents := by
  unfold Obligations.InstructionTableContents
  decide

/-- Settles O19: each form of descriptor has the fields of its format, whatever its values. -/
theorem fieldPresenceAgreesWithFormat : Obligations.FieldPresenceAgreesWithFormat := by
  intro m
  cases descriptor m with
  | r _ _ _ | i _ _ | u _ => simp [Descriptor.funct3, Descriptor.funct7, Descriptor.format]

/-- Settles O40: the reader run on each word. -/
theorem wordsWrittenOutDecode : Obligations.WordsWrittenOutDecode := by
  unfold Obligations.WordsWrittenOutDecode
  decide

end Sys2Proof.Proofs

namespace Sys2Proof.Proofs

open Sys2Proof.Machine Sys2Proof.Statements

/-! ## The input grammar -/

/-- An instruction has an OK result exactly when it is well-formed. -/
theorem exists_result_eq_ok {hex : Bool} {i : Instr} : (∃ w o, i.result hex = .ok w o) ↔ i.wellFormed hex = true := by
  simp only [← Laws.encodeDefined_of i hex, Option.isSome_iff_exists, encode_eq_some, result_eq_ok]

/-- A line has an OK result exactly when its tokens are a key and the operands of a well-formed instruction. -/
theorem exists_encodeLine_eq_ok {hex : Bool} {line : Line} : (∃ w o, encodeLine hex line = .ok w o) ↔
    ∃ (k : Mnemonic) (ops : List Token), tokens line = k.key :: ops ∧ (k.instr ops).wellFormed hex = true := by
  constructor
  · rintro ⟨w, o, h⟩
    rcases tokens_cases line with hline | ⟨t, ops, hline, ht⟩ | ⟨k, ops, hline⟩
    · rw [encodeLine_eq_blank.2 hline] at h
      cases h
    · rw [encodeLine_of_lookup_eq_none hline ht] at h
      cases h
    · rw [encodeLine_of_key hline] at h
      exact ⟨k, ops, hline, exists_result_eq_ok.1 ⟨w, o, h⟩⟩
  · rintro ⟨k, ops, hline, hwf⟩
    rw [encodeLine_of_key hline]
    exact exists_result_eq_ok.2 hwf

/-- Operands of a format's number and grammar (30_encoding.md R69). -/
def OperandGrammar (hex : Bool) (fmt : Format) (ops : List Token) : Prop :=
  match fmt, ops with
  | .R, [t1, t2, t3] => t1 ∈ regNames ∧ t2 ∈ regNames ∧ t3 ∈ regNames
  | .I, [t1, t2, t3] => t1 ∈ regNames ∧ t2 ∈ regNames ∧ ∃ v, ImmediateNumeral hex .I t3 v
  | .U, [t1, t2] => t1 ∈ regNames ∧ ∃ v, ImmediateNumeral hex .U t2 v
  | _, _ => False

theorem isRegister_iff {t : Token} : isRegister t = true ↔ t ∈ regNames := by
  rw [isRegister_eq, regDecode_isSome]

theorem isImmediate_iff {hex : Bool} {fmt : Format} {t : Token} :
    isImmediate hex fmt t = true ↔ ∃ v, ImmediateNumeral hex fmt t v := by
  simp only [isImmediate, Option.isSome_iff_exists, parseImm_eq_some]

/-- The well-formed instructions are those of the grammar. -/
theorem wellFormed_iff_operandGrammar {hex : Bool} {k : Mnemonic} {ops : List Token} :
    (k.instr ops).wellFormed hex = true ↔ OperandGrammar hex (descriptor k).format ops := by
  rw [wellFormed_eq, instr_mnemonic, instr_ops]
  cases (descriptor k).format with
  | R =>
    match ops with
    | [t1, t2, t3] => simp only [wellFormedR, OperandGrammar, Bool.and_eq_true, isRegister_iff, and_assoc]
    | [] | [_] | [_, _] | _ :: _ :: _ :: _ :: _ => exact iff_of_false nofun nofun
  | I =>
    match ops with
    | [t1, t2, t3] =>
      simp only [wellFormedI, OperandGrammar, Bool.and_eq_true, isRegister_iff, isImmediate_iff, and_assoc]
    | [] | [_] | [_, _] | _ :: _ :: _ :: _ :: _ => exact iff_of_false nofun nofun
  | U =>
    match ops with
    | [t1, t2] => simp only [wellFormedU, OperandGrammar, Bool.and_eq_true, isRegister_iff, isImmediate_iff]
    | [] | [_] | _ :: _ :: _ :: _ => exact iff_of_false nofun nofun

theorem ne_nil_of_immediateNumeral {hex : Bool} {fmt : Format} {t : Text} {v : Int}
    (h : ImmediateNumeral hex fmt t v) : t ≠ [] := by
  rintro rfl
  simp [← parseImm_eq_some, parseImm_eq, parseDec] at h

theorem ne_nil_of_mem_regNames {t : Token} (h : t ∈ regNames) : t ≠ [] := by
  obtain ⟨r, rfl⟩ := mem_regNames.1 h
  exact List.cons_ne_nil _ _

/-- Operands of the grammar are not empty. -/
theorem ne_nil_of_operandGrammar {hex : Bool} {fmt : Format} {ops : List Token} (h : OperandGrammar hex fmt ops) :
    ∀ t ∈ ops, t ≠ [] := by
  unfold OperandGrammar at h
  split at h
  · obtain ⟨h1, h2, h3⟩ := h
    simp [ne_nil_of_mem_regNames, h1, h2, h3]
  · obtain ⟨h1, h2, v, h3⟩ := h
    simp [ne_nil_of_mem_regNames, h1, h2, ne_nil_of_immediateNumeral h3]
  · obtain ⟨h1, v, h2⟩ := h
    simp [ne_nil_of_mem_regNames, h1, ne_nil_of_immediateNumeral h2]
  · exact h.elim

theorem isToken_key (k : Mnemonic) : IsToken k.key := ⟨key_ne_nil k, key_not_separator k⟩

/-- Settles O57: the lines of the grammar are the lines whose tokens are a key and the operands of a well-formed
instruction. -/
theorem encodedLinesAreTheSyntax : Obligations.EncodedLinesAreTheSyntax := by
  intro hex line
  simp only [gives_iff, exists_encodeLine_eq_ok, wellFormed_iff_operandGrammar, tokens_eq_cons_iff (isToken_key _)]
  constructor
  · rintro ⟨k, _, ⟨pre, parts, post, rfl, hpre, hparts, hpost, rfl⟩, hops⟩
    refine ⟨pre, post, k, parts, by simp only [List.append_assoc], hpre, hpost, fun p hp => ?_, hops⟩
    obtain ⟨⟨hsep, hne⟩, -, hns⟩ := hparts p hp
    exact ⟨hsep, hne, hns⟩
  · rintro ⟨pre, post, k, parts, rfl, hpre, hpost, hparts, hops⟩
    have hgrammar : OperandGrammar hex (descriptor k).format (parts.map Prod.snd) := hops
    refine ⟨k, _, ⟨pre, parts, post, by simp only [List.append_assoc], hpre, fun p hp => ?_, hpost, rfl⟩, hgrammar⟩
    obtain ⟨hsep, hne, hns⟩ := hparts p hp
    exact ⟨⟨hsep, hne⟩, ne_nil_of_operandGrammar hgrammar _ (List.mem_map_of_mem hp), hns⟩

end Sys2Proof.Proofs

namespace Sys2Proof.Proofs

open Sys2Proof.Machine Sys2Proof.Statements

/-! ## The rule of an R-type mnemonic (40_r_type.md R70) -/

/-- An instruction whose encoding succeeds gives the word, and nothing else happens (00_scope.md R11). -/
theorem exec_of_encodeOps_eq_ok {m : Mnemonic} {ops : List Token} {s : State} {w : Word} {o : Bool}
    (h : encodeOps s.uniformImmHex (descriptor m) ops = .ok (w, o)) :
    exec (m.instr ops) s = .next (after s (.ok w o) [render w]) := by
  rw [exec_eq_next_record, result_eq_resultOf, instr_mnemonic, instr_ops, h, record_eq_after]
  rfl

/-- The R-type layout with every register at 0 is its fixed fields, each shifted into its place (30_encoding.md R61). -/
theorem packR_zero_registers (funct7 : BitVec 7) (funct3 : BitVec 3) (opcode : BitVec 7) :
    packR funct7 0 0 funct3 0 opcode =
      (funct7.setWidth 32 <<< 25) ||| (funct3.setWidth 32 <<< 12) ||| opcode.setWidth 32 := by
  apply BitVec.eq_of_getLsbD_eq
  intro i hi
  simp only [getLsbD_packR, BitVec.getLsbD_or, BitVec.getLsbD_shiftLeft, BitVec.getLsbD_setWidth]
  grind

/-- Under the R-type mask a word keeps its fixed fields, whatever its registers. -/
theorem packR_and_mask (funct7 : BitVec 7) (rs2 rs1 : Reg) (funct3 : BitVec 3) (rd : Reg) (opcode : BitVec 7) :
    packR funct7 rs2 rs1 funct3 rd opcode &&& (0xFE00707F : Word) =
      (funct7.setWidth 32 <<< 25) ||| (funct3.setWidth 32 <<< 12) ||| opcode.setWidth 32 := by
  rw [and_maskR, funct7Field_packR, funct3Field_packR, opcodeField_packR, packR_zero_registers]

/-- A mnemonic with an R-type row in the table follows the rule with the fields of its row: `EncR` on three register
names, and the errors of its operands in their order. -/
theorem rTypeRule_of_descriptor {m : Mnemonic} {funct3 : BitVec 3} {funct7 : BitVec 7}
    (hd : descriptor m = .r 0b0110011 funct3 funct7) : RTypeRule m.instr funct7 funct3 := by
  have hR : (descriptor m).format = .R := by rw [hd]; rfl
  have hcount : (descriptor m).format.operandCount = 3 := by rw [hR]; rfl
  intro s
  refine ⟨fun rd rs1 rs2 => ⟨?word, packR_and_mask funct7 rs2 rs1 funct3 rd _⟩, fun ops hops => ?count,
    fun t1 t2 t3 h1 => ?first, fun t1 t2 t3 h1 h2 => ?second, fun t1 t2 t3 h1 h2 h3 => ?third⟩
  case word =>
    refine exec_of_encodeOps_eq_ok (encodeOps_eq_ok.2 ?_)
    rw [hd]
    exact ⟨rd, rs1, rs2, rfl, rfl, rfl⟩
  case count => exact exec_of_encodeOps_eq_error (encodeOps_wrong_count (hcount ▸ hops))
  case first => exact exec_of_encodeOps_eq_error (encodeOps_bad_first hcount.symm h1)
  case second => exact exec_of_encodeOps_eq_error (encodeOps_bad_second (by rw [hR]; exact nofun) h1 h2)
  case third => exact exec_of_encodeOps_eq_error (encodeOps_bad_third hR h1 h2 h3)

/-- Settles O1: the ten rows of the table are R-type with the fields of their rules, and two spellings have no row. -/
theorem rTypeMnemonicsEncodeOrReject : Obligations.RTypeMnemonicsEncodeOrReject :=
  ⟨rTypeRule_of_descriptor (m := .add) rfl, rTypeRule_of_descriptor (m := .sub) rfl,
    rTypeRule_of_descriptor (m := .and) rfl, rTypeRule_of_descriptor (m := .or) rfl,
    rTypeRule_of_descriptor (m := .xor) rfl, rTypeRule_of_descriptor (m := .sll) rfl,
    rTypeRule_of_descriptor (m := .srl) rfl, rTypeRule_of_descriptor (m := .sra) rfl,
    rTypeRule_of_descriptor (m := .stl) rfl, rTypeRule_of_descriptor (m := .stlu) rfl,
    by decide, by decide⟩

end Sys2Proof.Proofs

namespace Sys2Proof.Proofs

open Sys2Proof.Machine Sys2Proof.Statements

/-! ## The rule of an I-type mnemonic (41_i_type.md R81) -/

/-- The overflow range of the 12-bit immediate with its ends written out (30_encoding.md R60). -/
theorem ovf_twelve (v : Int) : ovf 12 v = decide (v < -2048 ∨ 4095 < v) := by
  rw [ovf, decide_eq_decide]
  norm_num

/-- The I-type layout with its immediate and registers at 0 is its fixed fields, each shifted into its place
(30_encoding.md R62). -/
theorem packI_zero_operands (funct3 : BitVec 3) (opcode : BitVec 7) :
    packI 0 0 funct3 0 opcode = (funct3.setWidth 32 <<< 12) ||| opcode.setWidth 32 := by
  apply BitVec.eq_of_getLsbD_eq
  intro i hi
  simp only [getLsbD_packI, BitVec.getLsbD_or, BitVec.getLsbD_shiftLeft, BitVec.getLsbD_setWidth]
  grind

/-- Under the I-type mask a word keeps its fixed fields, whatever its immediate and registers. -/
theorem packI_and_mask (imm : BitVec 12) (rs1 : Reg) (funct3 : BitVec 3) (rd : Reg) (opcode : BitVec 7) :
    packI imm rs1 funct3 rd opcode &&& (0x0000707F : Word) = (funct3.setWidth 32 <<< 12) ||| opcode.setWidth 32 := by
  rw [and_maskI, funct3Field_packI, opcodeField_packI, packI_zero_operands]

/-- `EncI` on two register names and a numeral: the word with the masked immediate, and its overflow indication. -/
theorem exec_iType_of_immediateNumeral {m : Mnemonic} {funct3 : BitVec 3} (hd : descriptor m = .i 0b0010011 funct3)
    {s : State} (rd rs1 : Reg) {t : Token} {v : Int} (ht : ImmediateNumeral s.uniformImmHex .I t v) :
    let w : Word := packI (mask 12 v) rs1 funct3 rd 0b0010011
    exec (m.instr [regName rd.toNat, regName rs1.toNat, t]) s = .next (after s (.ok w (ovf 12 v)) [render w]) := by
  refine exec_of_encodeOps_eq_ok (encodeOps_eq_ok.2 ?_)
  rw [hd]
  exact ⟨rd, rs1, t, v, rfl, parseImm_eq_some.2 ht, rfl, rfl⟩

/-- A mnemonic with an I-type row in the table follows the rule with the funct3 of its row: `EncI` on two register names
and a numeral, and the errors of its operands in their order. -/
theorem iTypeRule_of_descriptor {m : Mnemonic} {funct3 : BitVec 3} (hd : descriptor m = .i 0b0010011 funct3) :
    ITypeRule m.instr funct3 := by
  have hI : (descriptor m).format = .I := by rw [hd]; rfl
  have hcount : (descriptor m).format.operandCount = 3 := by rw [hI]; rfl
  intro s
  refine ⟨fun rd rs1 t v ht => ?numeral, fun ops hops => ?count, fun t1 t2 t3 h1 => ?first,
    fun t1 t2 t3 h1 h2 => ?second, fun t1 t2 t3 h1 h2 h3 => ?malformed⟩
  case numeral =>
    rw [← mask_eq_ofInt, ← ovf_twelve]
    exact ⟨exec_iType_of_immediateNumeral hd rd rs1 ht, packI_and_mask (mask 12 v) rs1 funct3 rd _⟩
  case count => exact exec_of_encodeOps_eq_error (encodeOps_wrong_count (hcount ▸ hops))
  case first => exact exec_of_encodeOps_eq_error (encodeOps_bad_first hcount.symm h1)
  case second => exact exec_of_encodeOps_eq_error (encodeOps_bad_second (by rw [hI]; exact nofun) h1 h2)
  case malformed => exact exec_of_encodeOps_eq_error (encodeOps_malformed_I hI h1 h2 (parseImm_eq_none.2 h3))

/-- Settles O2: the nine rows of the table are I-type with the funct3 of their rules. -/
theorem iTypeMnemonicsEncodeOrReject : Obligations.ITypeMnemonicsEncodeOrReject :=
  ⟨iTypeRule_of_descriptor (m := .addi) rfl, iTypeRule_of_descriptor (m := .andi) rfl,
    iTypeRule_of_descriptor (m := .ori) rfl, iTypeRule_of_descriptor (m := .xori) rfl,
    iTypeRule_of_descriptor (m := .slti) rfl, iTypeRule_of_descriptor (m := .sltiu) rfl,
    iTypeRule_of_descriptor (m := .slli) rfl, iTypeRule_of_descriptor (m := .srli) rfl,
    iTypeRule_of_descriptor (m := .srai) rfl⟩

/-! ## `srai` has no funct7 (41_i_type.md R90) -/

/-- Bits 31:25 of an I-type word are the seven high bits of its immediate. -/
theorem funct7Field_packI (imm : BitVec 12) (rs1 : Reg) (funct3 : BitVec 3) (rd : Reg) (opcode : BitVec 7) :
    funct7Field (packI imm rs1 funct3 rd opcode) = imm.extractLsb' 5 7 := by
  apply BitVec.eq_of_getLsbD_eq
  intro i hi
  rw [funct7Field, BitVec.getLsbD_extractLsb', BitVec.getLsbD_extractLsb', getLsbD_packI]
  grind

/-- The seven high bits of the masked value are its remainder divided by 32, and `0100000` is 32. -/
theorem extractLsb'_mask_eq_iff (v : Int) :
    (mask 12 v).extractLsb' 5 7 = 0b0100000#7 ↔ 1024 ≤ v % 4096 ∧ v % 4096 < 1056 := by
  have hmask : ((mask 12 v).toNat : Int) = v % 4096 := mask_toNat 12 v
  rw [← BitVec.toNat_inj, BitVec.extractLsb'_toNat, Nat.shiftRight_eq_div_pow, BitVec.toNat_ofNat]
  omega

/-- Settles O4: `srai` and `srli` have one row's fields, and bits 31:25 come from the immediate alone. -/
theorem sraiWordIsStandardOnlyByItsImmediate : Obligations.SraiWordIsStandardOnlyByItsImmediate := by
  intro s rd rs1 t v ht
  refine ⟨packI (mask 12 v) rs1 0b101 rd 0b0010011, ovf 12 v, exec_iType_of_immediateNumeral (m := .srai) rfl rd rs1 ht,
    exec_iType_of_immediateNumeral (m := .srli) rfl rd rs1 ht, ?_⟩
  rw [← funct7Field, funct7Field_packI, extractLsb'_mask_eq_iff]

end Sys2Proof.Proofs

namespace Sys2Proof.Proofs

open Sys2Proof.Machine Sys2Proof.Statements

/-! ## The rule of a U-type mnemonic (42_u_type.md R91) -/

/-- The overflow range of the 20-bit immediate with its ends written out (30_encoding.md R60). -/
theorem ovf_twenty (v : Int) : ovf 20 v = decide (v < -524288 ∨ 1048575 < v) := by
  rw [ovf, decide_eq_decide]
  norm_num

/-- The U-type layout with its immediate and register at 0 is its opcode (30_encoding.md R63). -/
theorem packU_zero_operands (opcode : BitVec 7) : packU 0 0 opcode = opcode.setWidth 32 := by
  apply BitVec.eq_of_getLsbD_eq
  intro i hi
  rw [getLsbD_packU, BitVec.getLsbD_setWidth]
  grind

/-- Under the U-type mask a word keeps its opcode, whatever its immediate and register. -/
theorem packU_and_mask (imm : BitVec 20) (rd : Reg) (opcode : BitVec 7) :
    packU imm rd opcode &&& (0x0000007F : Word) = opcode.setWidth 32 := by
  rw [and_maskU, opcodeField_packU, packU_zero_operands]

/-- `EncU` on a register name and a numeral: the word with the masked immediate, and its overflow indication. -/
theorem exec_uType_of_immediateNumeral {m : Mnemonic} {opcode : BitVec 7} (hd : descriptor m = .u opcode)
    {s : State} (rd : Reg) {t : Token} {v : Int} (ht : ImmediateNumeral s.uniformImmHex .U t v) :
    let w : Word := packU (mask 20 v) rd opcode
    exec (m.instr [regName rd.toNat, t]) s = .next (after s (.ok w (ovf 20 v)) [render w]) := by
  refine exec_of_encodeOps_eq_ok (encodeOps_eq_ok.2 ?_)
  rw [hd]
  exact ⟨rd, t, v, rfl, parseImm_eq_some.2 ht, rfl, rfl⟩

/-- A mnemonic with a U-type row in the table follows the rule with the opcode of its row: `EncU` on a register name and
a numeral, and the errors of its operands in their order. -/
theorem uTypeRule_of_descriptor {m : Mnemonic} {opcode : BitVec 7} (hd : descriptor m = .u opcode) :
    UTypeRule m.instr opcode := by
  have hU : (descriptor m).format = .U := by rw [hd]; rfl
  have hcount : (descriptor m).format.operandCount = 2 := by rw [hU]; rfl
  intro s
  refine ⟨fun rd t v ht => ?numeral, fun ops hops => ?count, fun t1 t2 h1 => ?first, fun t1 t2 h1 h2 => ?malformed⟩
  case numeral =>
    rw [← mask_eq_ofInt, ← ovf_twenty]
    exact ⟨exec_uType_of_immediateNumeral hd rd ht, packU_and_mask (mask 20 v) rd opcode⟩
  case count => exact exec_of_encodeOps_eq_error (encodeOps_wrong_count (hcount ▸ hops))
  case first => exact exec_of_encodeOps_eq_error (encodeOps_bad_first hcount.symm h1)
  case malformed => exact exec_of_encodeOps_eq_error (encodeOps_malformed_U hU h1 (parseImm_eq_none.2 h2))

/-- Settles O3: the two rows of the table are U-type with the opcodes of their rules. -/
theorem uTypeMnemonicsEncodeOrReject : Obligations.UTypeMnemonicsEncodeOrReject :=
  ⟨uTypeRule_of_descriptor (m := .lui) rfl, uTypeRule_of_descriptor (m := .auipc) rfl⟩

end Sys2Proof.Proofs

namespace Sys2Proof.Proofs

open Sys2Proof.Machine Sys2Proof.Statements

/-! ## The error kinds' codes (60_exceptions.md R94) -/

/-- Settles O28: each kind has its own code, and none of them is 000 or above 100. -/
theorem errorCodes : Obligations.ErrorCodes := by
  refine ⟨rfl, rfl, rfl, rfl, ?_⟩
  rintro _ hundriven k rfl
  revert hundriven
  cases k <;> decide

/-! ## Overflow (60_exceptions.md R100) -/

/-- An instruction with an OK result records it, and the host writes its word (00_scope.md R11, 20_memory.md R32). -/
theorem exec_of_result_eq_ok {i : Instr} {s : State} {w : Word} {o : Bool} (h : i.result s.uniformImmHex = .ok w o) :
    exec i s = .next (after s (.ok w o) [render w]) := by
  rw [exec_eq_next_record, h, record_eq_after, written]

/-- Settles O10: the respelled instruction is the one read back from the word, which encodes to that word. -/
theorem overflowNeverReplacesTheWord : Obligations.OverflowNeverReplacesTheWord := by
  intro s i hwf
  obtain ⟨w, o, hresult⟩ := exists_result_eq_ok.2 hwf
  have hencode : encode s.uniformImmHex i = some w := encode_eq_some.2 ⟨o, result_eq_ok.1 hresult⟩
  exact ⟨w, o, exec_of_result_eq_ok hresult,
    exec_of_result_eq_ok (result_eq_ok.2 (encodeOps_of_decodeWord (decodeWord_of_encode hencode) _))⟩

end Sys2Proof.Proofs

namespace Sys2Proof.Proofs

open Sys2Proof.Machine Sys2Proof.Statements

/-! ## Where the errors come from -/

/-- Operands of a format have the fault `kind` at `pos`, and none in front of it in the order of 60_exceptions.md R99:
the operand count, then the operands by their positions. -/
inductive FirstFault (hex : Bool) : Format → List Token → ErrKind → Pos → Prop where
  | count {fmt : Format} {ops : List Token} (hcount : ops.length ≠ fmt.operandCount) :
    FirstFault hex fmt ops .operandCountMismatch 0
  | register {fmt : Format} {ops : List Token} {t : Token} {pos : Pos} (hcount : ops.length = fmt.operandCount)
    (hpos : 1 ≤ pos.val) (hle : pos.val ≤ registerCount fmt) (ht : ops[pos.val - 1]? = some t) (hbad : t ∉ regNames)
    (hfront : RegistersUpTo (pos.val - 1) ops) : FirstFault hex fmt ops .invalidRegister pos
  | immediateI {t1 t2 t3 : Token} (h1 : t1 ∈ regNames) (h2 : t2 ∈ regNames)
    (h3 : ∀ v, ¬ ImmediateNumeral hex .I t3 v) : FirstFault hex .I [t1, t2, t3] .malformedImmediate 3
  | immediateU {t1 t2 : Token} (h1 : t1 ∈ regNames) (h2 : ∀ v, ¬ ImmediateNumeral hex .U t2 v) :
    FirstFault hex .U [t1, t2] .malformedImmediate 2

theorem registersUpTo_zero (ops : List Token) : RegistersUpTo 0 ops := nofun

theorem registersUpTo_succ_cons {n : Nat} {t : Token} {ops : List Token} :
    RegistersUpTo (n + 1) (t :: ops) ↔ t ∈ regNames ∧ RegistersUpTo n ops := List.forall_mem_cons

/-- Among the first operands either all are register names, or there is a first one that is none. -/
theorem exists_first_bad_register {n : Nat} {ops : List Token} (h : ¬ RegistersUpTo n ops) :
    ∃ i t, i < n ∧ ops[i]? = some t ∧ t ∉ regNames ∧ RegistersUpTo i ops := by
  induction ops generalizing n with
  | nil => exact absurd (by simp [RegistersUpTo]) h
  | cons t ts ih =>
    cases n with
    | zero => exact absurd (registersUpTo_zero _) h
    | succ n =>
      by_cases ht : t ∈ regNames
      · rw [registersUpTo_succ_cons, and_iff_right ht] at h
        obtain ⟨i, u, hi, hu, hbad, hfront⟩ := ih h
        exact ⟨i + 1, u, Nat.succ_lt_succ hi, hu, hbad, registersUpTo_succ_cons.2 ⟨ht, hfront⟩⟩
      · exact ⟨0, t, Nat.succ_pos n, rfl, ht, registersUpTo_zero _⟩

/-- Operands of the right number with a bad register operand have a first fault there. -/
theorem exists_firstFault_register (hex : Bool) {fmt : Format} {ops : List Token}
    (hcount : ops.length = fmt.operandCount) (h : ¬ RegistersUpTo (registerCount fmt) ops) :
    ∃ pos, FirstFault hex fmt ops .invalidRegister pos := by
  obtain ⟨i, t, hi, ht, hbad, hfront⟩ := exists_first_bad_register h
  have hpos : i + 1 < 4 := by
    have := registerCount_le fmt
    omega
  exact ⟨⟨i + 1, hpos⟩, .register hcount (Nat.succ_pos i) hi ht hbad hfront⟩

/-- Operands either follow the grammar of their format or have a first fault. -/
theorem operandGrammar_or_firstFault (hex : Bool) (fmt : Format) (ops : List Token) :
    OperandGrammar hex fmt ops ∨ ∃ kind pos, FirstFault hex fmt ops kind pos := by
  by_cases hcount : ops.length = fmt.operandCount
  case neg => exact .inr ⟨_, _, .count hcount⟩
  by_cases hregs : RegistersUpTo (registerCount fmt) ops
  case neg => exact .inr ⟨_, exists_firstFault_register hex hcount hregs⟩
  cases fmt with
  | R =>
    obtain ⟨t1, t2, t3, rfl⟩ := List.length_eq_three.1 hcount
    simp only [registerCount, registersUpTo_succ_cons] at hregs
    obtain ⟨h1, h2, h3, -⟩ := hregs
    exact .inl ⟨h1, h2, h3⟩
  | I =>
    obtain ⟨t1, t2, t3, rfl⟩ := List.length_eq_three.1 hcount
    simp only [registerCount, registersUpTo_succ_cons] at hregs
    obtain ⟨h1, h2, -⟩ := hregs
    by_cases h3 : ∃ v, ImmediateNumeral hex .I t3 v
    · exact .inl ⟨h1, h2, h3⟩
    · exact .inr ⟨_, _, .immediateI h1 h2 (not_exists.1 h3)⟩
  | U =>
    obtain ⟨t1, t2, rfl⟩ := List.length_eq_two.1 hcount
    simp only [registerCount, registersUpTo_succ_cons] at hregs
    obtain ⟨h1, -⟩ := hregs
    by_cases h2 : ∃ v, ImmediateNumeral hex .U t2 v
    · exact .inl ⟨h1, h2⟩
    · exact .inr ⟨_, _, .immediateU h1 (not_exists.1 h2)⟩

/-- The encoding reports a bad register operand with good ones in front at its position, 1, 2 or 3. -/
theorem encodeOps_first_bad_register {hex : Bool} {d : Descriptor} {ops : List Token} {t : Token} {pos : Pos}
    (hcount : ops.length = d.format.operandCount) (hpos : 1 ≤ pos.val) (hle : pos.val ≤ registerCount d.format)
    (ht : ops[pos.val - 1]? = some t) (hbad : t ∉ regNames) (hfront : RegistersUpTo (pos.val - 1) ops) :
    encodeOps hex d ops = .error (.invalidRegister, pos) := by
  match pos with
  | 0 => exact absurd hpos (by decide)
  | 1 =>
    obtain ⟨ts, rfl⟩ := List.head?_eq_some_iff.1 (List.head?_eq_getElem?.trans ht)
    exact encodeOps_bad_first hcount hbad
  | 2 =>
    have hU := format_ne_U_of_registerCount hle
    obtain ⟨t1, t2, t3, rfl⟩ := List.length_eq_three.1 (hcount.trans (operandCount_eq_three hU))
    obtain rfl := Option.some.inj ht
    obtain ⟨h1, -⟩ := registersUpTo_succ_cons.1 hfront
    exact encodeOps_bad_second hU h1 hbad
  | 3 =>
    have hR := format_eq_R_of_registerCount hle
    obtain ⟨t1, t2, t3, rfl⟩ := List.length_eq_three.1 (hcount.trans (by rw [hR]; rfl))
    obtain rfl := Option.some.inj ht
    obtain ⟨h1, hrest⟩ := registersUpTo_succ_cons.1 hfront
    obtain ⟨h2, -⟩ := registersUpTo_succ_cons.1 hrest
    exact encodeOps_bad_third hR h1 h2 hbad

/-- The encoding reports the first fault of its operands. -/
theorem encodeOps_of_firstFault {hex : Bool} {d : Descriptor} {ops : List Token} {kind : ErrKind} {pos : Pos}
    (h : FirstFault hex d.format ops kind pos) : encodeOps hex d ops = .error (kind, pos) := by
  generalize hfmt : d.format = fmt at h
  cases h with
  | count hcount => exact encodeOps_wrong_count (hfmt ▸ hcount)
  | register hcount hpos hle ht hbad hfront =>
    subst hfmt
    exact encodeOps_first_bad_register hcount hpos hle ht hbad hfront
  | immediateI h1 h2 h3 => exact encodeOps_malformed_I hfmt h1 h2 (parseImm_eq_none.2 h3)
  | immediateU h1 h2 => exact encodeOps_malformed_U hfmt h1 (parseImm_eq_none.2 h2)

/-- The result of an instruction whose encoding fails. -/
theorem result_of_encodeOps_eq_error {hex : Bool} {k : Mnemonic} {ops : List Token} {kind : ErrKind} {pos : Pos}
    (h : encodeOps hex (descriptor k) ops = .error (kind, pos)) : (k.instr ops).result hex = .err kind pos := by
  rw [result_eq_resultOf, instr_mnemonic, instr_ops, h, resultOf]

/-- An instruction gives an error exactly when it is the first fault of its operands. -/
theorem result_eq_err {hex : Bool} {k : Mnemonic} {ops : List Token} {kind : ErrKind} {pos : Pos} :
    (k.instr ops).result hex = .err kind pos ↔ FirstFault hex (descriptor k).format ops kind pos := by
  refine ⟨fun h => ?_, fun h => result_of_encodeOps_eq_error (encodeOps_of_firstFault h)⟩
  rcases operandGrammar_or_firstFault hex (descriptor k).format ops with hok | ⟨kind', pos', hfault⟩
  · obtain ⟨w, o, hresult⟩ := exists_result_eq_ok.2 (wellFormed_iff_operandGrammar.2 hok)
    rw [hresult] at h
    cases h
  · rw [result_of_encodeOps_eq_error (encodeOps_of_firstFault hfault)] at h
    obtain ⟨rfl, rfl⟩ := Result.err.inj h
    exact hfault

/-- A line gives an error exactly for a first token outside the table, or for a first fault of its operands. -/
theorem encodeLine_eq_err {hex : Bool} {line : Line} {kind : ErrKind} {pos : Pos} :
    encodeLine hex line = .err kind pos ↔
      (kind = .unknownMnemonic ∧ pos = 0 ∧ ∃ t ops, tokens line = t :: ops ∧ lookup t = none) ∨
      ∃ (k : Mnemonic) (ops : List Token), tokens line = k.key :: ops ∧
        FirstFault hex (descriptor k).format ops kind pos := by
  constructor
  · intro h
    rcases tokens_cases line with hline | ⟨t, ops, hline, ht⟩ | ⟨k, ops, hline⟩
    · rw [encodeLine_eq_blank.2 hline] at h
      cases h
    · rw [encodeLine_of_lookup_eq_none hline ht] at h
      obtain ⟨rfl, rfl⟩ := Result.err.inj h
      exact .inl ⟨rfl, rfl, t, ops, hline, ht⟩
    · rw [encodeLine_of_key hline] at h
      exact .inr ⟨k, ops, hline, result_eq_err.1 h⟩
  · rintro (⟨rfl, rfl, t, ops, hline, ht⟩ | ⟨k, ops, hline, hfault⟩)
    · exact encodeLine_of_lookup_eq_none hline ht hex
    · rw [encodeLine_of_key hline, result_eq_err.2 hfault]

end Sys2Proof.Proofs

namespace Sys2Proof.Proofs

open Sys2Proof.Machine Sys2Proof.Statements

/-! ## Each error kind, exactly (60_exceptions.md R95-R98) -/

section
variable {hex : Bool} {fmt : Format} {ops : List Token} {pos : Pos}

theorem not_firstFault_unknownMnemonic : ¬ FirstFault hex fmt ops .unknownMnemonic pos := nofun

theorem firstFault_operandCountMismatch :
    FirstFault hex fmt ops .operandCountMismatch pos ↔ pos = 0 ∧ ops.length ≠ fmt.operandCount := by
  constructor
  · rintro ⟨hcount⟩
    exact ⟨rfl, hcount⟩
  · rintro ⟨rfl, hcount⟩
    exact .count hcount

theorem firstFault_invalidRegister : FirstFault hex fmt ops .invalidRegister pos ↔
    ∃ t, ops.length = fmt.operandCount ∧ 1 ≤ pos.val ∧ pos.val ≤ registerCount fmt ∧
      ops[pos.val - 1]? = some t ∧ t ∉ regNames ∧ RegistersUpTo (pos.val - 1) ops := by
  constructor
  · intro h
    cases h with
    | register hcount hpos hle ht hbad hfront => exact ⟨_, hcount, hpos, hle, ht, hbad, hfront⟩
  · rintro ⟨t, hcount, hpos, hle, ht, hbad, hfront⟩
    exact .register hcount hpos hle ht hbad hfront

theorem firstFault_malformedImmediate : FirstFault hex fmt ops .malformedImmediate pos ↔
    (∃ t1 t2 t3, ops = [t1, t2, t3] ∧ fmt = .I ∧ pos = 3 ∧ t1 ∈ regNames ∧ t2 ∈ regNames ∧
      ∀ v, ¬ ImmediateNumeral hex .I t3 v) ∨
    ∃ t1 t2, ops = [t1, t2] ∧ fmt = .U ∧ pos = 2 ∧ t1 ∈ regNames ∧ ∀ v, ¬ ImmediateNumeral hex .U t2 v := by
  constructor
  · rintro (_ | _ | ⟨h1, h2, h3⟩ | ⟨h1, h2⟩)
    · exact .inl ⟨_, _, _, rfl, rfl, rfl, h1, h2, h3⟩
    · exact .inr ⟨_, _, rfl, rfl, rfl, h1, h2⟩
  · rintro (⟨t1, t2, t3, rfl, rfl, rfl, h1, h2, h3⟩ | ⟨t1, t2, rfl, rfl, rfl, h1, h2⟩)
    · exact .immediateI h1 h2 h3
    · exact .immediateU h1 h2

end

/-- Settles O20: no fault of operands is an unknown mnemonic. -/
theorem unknownMnemonicExactlyOutsideTheTable : Obligations.UnknownMnemonicExactlyOutsideTheTable := by
  intro hex line pos
  simp only [gives_iff, encodeLine_eq_err, not_firstFault_unknownMnemonic, lookup_eq_none, true_and, and_false,
    exists_false, or_false]

/-- Settles O22: of the faults of operands, the first in the order. -/
theorem countMismatchExactlyForWrongCounts : Obligations.CountMismatchExactlyForWrongCounts := by
  intro hex line pos
  simp only [gives_iff, encodeLine_eq_err, firstFault_operandCountMismatch, reduceCtorEq, false_and, and_false,
    false_or, and_left_comm (b := pos = 0), exists_and_left]
  refine and_congr_right fun _ => exists_congr fun k => ?_
  cases (descriptor k).format with
  | R | I | U => rfl

/-- Settles O23: the first bad register operand is the first fault of operands of the right number. -/
theorem invalidRegisterAtFirstBadRegister : Obligations.InvalidRegisterAtFirstBadRegister := by
  intro hex line pos
  simp only [gives_iff, encodeLine_eq_err, firstFault_invalidRegister, reduceCtorEq, false_and, false_or,
    exists_and_left]

/-- Settles O24: a bad immediate is the first fault behind good registers. -/
theorem malformedImmediateAtTheImmediate : Obligations.MalformedImmediateAtTheImmediate := by
  intro hex line pos
  simp only [gives_iff, encodeLine_eq_err, firstFault_malformedImmediate, reduceCtorEq, false_and, false_or]
  constructor
  · rintro ⟨k, _, hline, ⟨t1, t2, t3, rfl, hI, hpos, h1, h2, h3⟩ | ⟨t1, t2, rfl, hU, hpos, h1, h2⟩⟩
    · exact ⟨k, t1, t2, t3, h1, .inl ⟨hline, hI, hpos, h2, h3⟩⟩
    · exact ⟨k, t1, t2, [], h1, .inr ⟨hline, hU, hpos, h2⟩⟩
  · rintro ⟨k, t1, t2, t3, h1, ⟨hline, hI, hpos, h2, h3⟩ | ⟨hline, hU, hpos, h2⟩⟩
    · exact ⟨k, _, hline, .inl ⟨t1, t2, t3, rfl, hI, hpos, h1, h2, h3⟩⟩
    · exact ⟨k, _, hline, .inr ⟨t1, t2, rfl, hU, hpos, h1, h2⟩⟩

/-! ## The order of the errors (60_exceptions.md R99) -/

/-- A step on a line with a known mnemonic gives the error its encoding fails with. -/
theorem gives_of_encodeOps_eq_error {hex : Bool} {line : Line} {k : Mnemonic} {ops : List Token} {kind : ErrKind}
    {pos : Pos} (hline : tokens line = k.key :: ops) (h : encodeOps hex (descriptor k) ops = .error (kind, pos)) :
    Gives hex line (.err kind pos) :=
  gives_iff.2 ((encodeLine_of_key hline hex).trans (result_of_encodeOps_eq_error h))

theorem isImmediate_eq_false {hex : Bool} {fmt : Format} {t : Token} :
    isImmediate hex fmt t = false ↔ parseImm hex fmt t = none := by
  rw [isImmediate, Option.isSome_eq_false_iff, Option.isNone_iff_eq_none]

/-- Settles O25: the encoding's own order of checks, behind the tokenizer's and the lookup's. -/
theorem firstFaultInOrderIsReported : Obligations.FirstFaultInOrderIsReported := by
  intro hex line
  refine ⟨fun hline => ?blank, fun m ops hline hm => ?unknown, fun k ops hline => ⟨fun hcount => ?count,
    fun t1 t2 hops hU => ?operandsU, fun t1 t2 t3 hops hU => ?operandsRI⟩⟩
  case blank => exact gives_iff.2 (encodeLine_eq_blank.2 hline)
  case unknown =>
    obtain ⟨-, hnone, -⟩ := lookupIsExactMatch
    exact gives_iff.2 (encodeLine_of_lookup_eq_none hline ((hnone m).2 hm) hex)
  case count => exact gives_of_encodeOps_eq_error hline (encodeOps_wrong_count hcount)
  case operandsU =>
    subst hops
    exact ⟨fun h1 => gives_of_encodeOps_eq_error hline (encodeOps_bad_first (by rw [hU]; rfl) h1),
      fun h1 h2 => gives_of_encodeOps_eq_error hline (encodeOps_malformed_U hU h1 (isImmediate_eq_false.1 h2))⟩
  case operandsRI =>
    subst hops
    have hcount := (operandCount_eq_three hU).symm
    exact ⟨fun h1 => gives_of_encodeOps_eq_error hline (encodeOps_bad_first hcount h1),
      fun h1 h2 => gives_of_encodeOps_eq_error hline (encodeOps_bad_second hU h1 h2),
      fun h1 h2 hR h3 => gives_of_encodeOps_eq_error hline (encodeOps_bad_third hR h1 h2 h3),
      fun h1 h2 hI h3 =>
        gives_of_encodeOps_eq_error hline (encodeOps_malformed_I hI h1 h2 (isImmediate_eq_false.1 h3))⟩

end Sys2Proof.Proofs

namespace Sys2Proof.Proofs

open Sys2Proof.Machine Sys2Proof.Statements

/-! ## What an error and a rejected line leave alone -/

/-- Settles O48: both steps record `Encode` of the line under the parameter. -/
theorem resultDependsOnlyOnLineAndParameter : Obligations.ResultDependsOnlyOnLineAndParameter := by
  intro s1 s2 line rest1 rest2 hhex h1 h2
  refine ⟨encodeLine s1.uniformImmHex line, ?_, ?_⟩
  · rw [step_of_pending_cons h1, record_eq_after]
  · rw [step_of_pending_cons h2, record_eq_after, hhex]

/-- A step adds to the results and does not read them. -/
theorem step_appends_results {s u : State} (h : step s = .next u) :
    ∃ rs, u.results = s.results ++ rs ∧ ∀ earlier : List Result,
      step { s with results := earlier } = .next { u with results := earlier ++ rs } := by
  obtain ⟨hex, pending, results, outputStream⟩ := s
  cases pending with
  | nil =>
    obtain rfl := Host.Outcome.next.inj ((step_of_pending_nil rfl).symm.trans h)
    refine ⟨[], (List.append_nil _).symm, fun earlier => ?_⟩
    rw [List.append_nil, step_of_pending_nil rfl]
  | cons line rest =>
    obtain rfl := Host.Outcome.next.inj ((step_of_pending_cons rfl).symm.trans h)
    exact ⟨_, record_results _ _, fun earlier => step_of_pending_cons rfl⟩

/-- Settles O26: recording an error adds the ERR to the results and nothing else, and the next step does not read the
results. -/
theorem errorChangesNothingElse : Obligations.ErrorChangesNothingElse := by
  intro s t kind pos hne hstep hresults
  obtain ⟨line, rest, hp⟩ := List.exists_cons_of_ne_nil hne
  obtain rfl := Host.Outcome.next.inj ((step_of_pending_cons hp).symm.trans hstep)
  have herr : encodeLine s.uniformImmHex line = .err kind pos := by simpa using hresults
  have hout : s.outputStream ++ emit (.err kind pos) = s.outputStream := List.append_nil _
  rw [hp, List.tail_cons, herr, State.record, hout]
  refine ⟨rfl, rfl, rfl, fun u hu => ?_⟩
  obtain ⟨rs, hrs, hnext⟩ := step_appends_results hu
  exact ⟨rs, hrs, hnext (s.results ++ [.err kind pos])⟩

/-- Leaving out lines whose results write nothing leaves the output as it is. -/
theorem emitAll_map_filter {f : Line → Result} {keep : Line → Bool} (h : ∀ line, keep line = false → emit (f line) = [])
    (lines : List Line) : emitAll ((lines.filter keep).map f) = emitAll (lines.map f) := by
  induction lines with
  | nil => rfl
  | cons line rest ih =>
    cases hline : keep line with
    | true => simpa [emitAll, hline] using ih
    | false => simpa [emitAll, hline, h line hline] using ih

/-- Settles O27: both runs end with the output of their lines' results, and the lines left out write nothing. -/
theorem rejectedLinesLeaveTheOutputAlone : Obligations.RejectedLinesLeaveTheOutputAlone := by
  intro hex lines kept
  refine ⟨_, _, run_all_pending (State.start hex lines), run_all_pending (State.start hex kept), rfl, rfl, ?_⟩
  refine congrArg (List.append []) (emitAll_map_filter (f := encodeLine hex) (fun line hline => ?_) lines).symm
  cases hresult : encodeLine hex line with
  | ok w o =>
    rw [hresult] at hline
    cases hline
  | blank | err _ _ => rfl

end Sys2Proof.Proofs

namespace Sys2Proof.Proofs

open Sys2Proof.Machine Sys2Proof.Statements

/-! ## Reset and the run as a whole -/

/-- Settles O43: with no line to take, a step idles. -/
theorem stepWithNoLineIsIdle : Obligations.StepWithNoLineIsIdle := fun _ => step_of_pending_nil

/-- Settles O52: a fresh run over the same lines is a state with the same parameter and the same next line, so its step
gives the same result. -/
theorem resetHasNoEffectOnResults : Obligations.ResetHasNoEffectOnResults := fun s line rest hpending =>
  resultDependsOnlyOnLineAndParameter s (State.start s.uniformImmHex (line :: rest)) line rest rest rfl hpending rfl

/-- The host emits at most one output line per line of the run, so the output stream is a `filterMap` of the lines
(20_memory.md R32). -/
theorem emitAll_map_eq_filterMap {f : Line → Result} {g : Line → Option Text}
    (h : ∀ line, emit (f line) = (g line).toList) (lines : List Line) :
    emitAll (lines.map f) = lines.filterMap g := by
  rw [emitAll, List.flatMap_map, List.filterMap_eq_flatMap_toList]
  exact congrArg lines.flatMap (funext h)

/-- Settles O53: a run records `Encode` of each pending line, and the host emits the rendered word of an OK result and
nothing for any other. -/
theorem runShowsResultsInInputOrder : Obligations.RunShowsResultsInInputOrder := by
  intro s
  rw [run_all_pending, emitAll_map_eq_filterMap]
  intro line
  cases encodeLine s.uniformImmHex line with
  | ok w o | blank | err kind pos => rfl

end Sys2Proof.Proofs

namespace Sys2Proof.Proofs

open Sys2Proof.Machine Sys2Proof.Statements

/-! ## Running the instruction read from a word -/

/-- The line of an instruction read from a word decodes to that instruction. -/
theorem decodeLine_line_of_decodeWord {w : Word} {i : Instr} (h : decodeWord w = some i) :
    decodeLine i.line = .instr i := by
  obtain ⟨m, -, hi⟩ := decodeWord_eq_some h
  have hops : i.ops = operandsRead w (descriptor m).format := by rw [hi, instrOfWord_eq, instr_ops]
  exact decodeLine_line i (hops ▸ operandsRead_are_tokens w _)

/-- What is read from table bits is read from the word they denote. -/
theorem decodeTableWord_eq_some {nbits w : Nat} {i : Instr} (h : decodeTableWord nbits w = some i) :
    ∃ word, tableWord nbits w = some word ∧ decodeWord word = some i := by
  unfold decodeTableWord at h
  split at h
  · exact ⟨_, ‹_›, h⟩
  · cases h

/-- The line placed for table bits decodes to the instruction read from them. -/
theorem decodeLine_lineOfTableWord {nbits w : Nat} {i : Instr} (h : decodeTableWord nbits w = some i) :
    decodeLine (lineOfTableWord nbits w) = .instr i := by
  obtain ⟨word, -, hword⟩ := decodeTableWord_eq_some h
  rw [lineOfTableWord, h]
  exact decodeLine_line_of_decodeWord hword

/-- Settles O42: a step runs what the next line decodes to, and the line placed decodes to the instruction read. -/
theorem fetchedWordRunsItsInstruction : Obligations.FetchedWordRunsItsInstruction := by
  intro s nbits w i h
  obtain ⟨hinstr, -, -⟩ := stepRunsTheDecodedInstruction (s.withFetchWord nbits w) _ s.pending rfl
  exact hinstr i (decodeLine_lineOfTableWord h)

end Sys2Proof.Proofs
